-- ==== Sys2Proof/Word.lean ====
section
/-! DEFINITION. The word and byte types (00_scope.md R7, R9; 40_execution_cycle.md R89 for the console's byte). -/

namespace Sys2Proof

/-- A 16-bit value: a general register, the pc, an address, a memory cell, an instruction word
(R7 `XLEN`, `ALEN`). `+` on it is addition modulo 65536 (R9). -/
abbrev Word := BitVec 16

/-- One byte of the console streams and of the image file (R47, R89, R91, R194). -/
abbrev Byte := BitVec 8

end Sys2Proof
end

