-- ==== Sys2Proof/Config.lean ====
section
/-! DEFINITION. What an implementation fixes (00_scope.md R7) and the one free value, the environment's answer to
a console poll (40_execution_cycle.md R90). -/

namespace Sys2Proof

/-- `OPCODE(m)`: the opcode number of each of the sixteen rows; JSR and JSRR, and the two forms of ADD and of AND,
share one (R65, D1). -/
structure Opcodes where
  br : BitVec 4
  add : BitVec 4
  ld : BitVec 4
  st : BitVec 4
  jsr : BitVec 4
  and : BitVec 4
  ldr : BitVec 4
  str : BitVec 4
  rti : BitVec 4
  not : BitVec 4
  ldi : BitVec 4
  sti : BitVec 4
  jmp : BitVec 4
  res : BitVec 4
  lea : BitVec 4
  trap : BitVec 4
  deriving DecidableEq, Repr

/-- `KBD_POLL`: the contract of the key check (R90, D8). -/
inductive KbdPoll where
  /-- A real query, answered by the environment. -/
  | query
  /-- "always false": the answer is always `none`, what the original software did. -/
  | never
  deriving DecidableEq, Repr

/-- `UNKNOWN_TRAP`: a TRAP whose vector is none of the six (R147, D5; 93_implementation_defined.md U3). -/
inductive UnknownTrap where
  /-- No operation. -/
  | nop
  /-- The alternative that U3 admits: the model stops. -/
  | fatal
  deriving DecidableEq, Repr

/-- The parameters of R7 whose value is not a width. The values the machine runs with are
`Sys2Proof.Machine.config`. -/
structure Config where
  /-- `OPCODE(m)` (R65, D1). -/
  opcodes : Opcodes
  /-- `PC_START`: pc after reset and image load (R23, D11). -/
  pcStart : Word
  /-- `KBSR_ADDR`: the only address whose read has a side effect (R43, D6). -/
  kbsrAddr : Word
  /-- `KBDR_ADDR`: where the latched character is stored (R43, R44, D6). -/
  kbdrAddr : Word
  /-- `KBD_POLL` (R90, D8). -/
  kbdPoll : KbdPoll
  /-- `UNKNOWN_TRAP` (R147, D5). -/
  unknownTrap : UnknownTrap
  /-- `FL_POS` (R26, D2). -/
  flPos : BitVec 3
  /-- `FL_ZRO` (R26, D2). -/
  flZro : BitVec 3
  /-- `FL_NEG` (R26, D2). -/
  flNeg : BitVec 3
  /-- `TV_GETC` (R67, D4). -/
  tvGetc : Byte
  /-- `TV_OUT` (R67, D4). -/
  tvOut : Byte
  /-- `TV_PUTS` (R67, D4). -/
  tvPuts : Byte
  /-- `TV_IN` (R67, D4). -/
  tvIn : Byte
  /-- `TV_PUTSP` (R67, D4). -/
  tvPutsp : Byte
  /-- `TV_HALT` (R67, D4). -/
  tvHalt : Byte
  /-- `IN_PROMPT`: what IN writes before it waits (R144, D16). -/
  inPrompt : List Byte
  /-- `HALT_NOTICE`: what HALT writes (R146, D16). -/
  haltNotice : List Byte
  /-- `NEWLINE`: what IN writes after the echo (R144, D16). -/
  newline : Byte
  /-- `MEM_INIT`: what a cell holds that nothing has written (R193, D12). -/
  memInit : Word
  deriving DecidableEq, Repr

/-- FREE VALUE. Whether the environment answers the `n`-th poll with the next undelivered byte, if there is one.
R90: "a draw of the environment, under no law other than that `some c` delivers the head of the input stream".
Nothing constrains it. Assumption 9. -/
opaque Config.pollReady : Nat → Bool

end Sys2Proof
end

