-- ==== Sys2Proof/Machine/Params.lean ====
section
/-! DEFINITION. The parameter values the machine runs with: the defaults of 00_scope.md R7. -/

namespace Sys2Proof.Machine

/-- The opcode numbers: the row indexes of the source's table (R65, D1; assumption 4). -/
def opcodes : Opcodes where
  br := 0#4
  add := 1#4
  ld := 2#4
  st := 3#4
  jsr := 4#4
  and := 5#4
  ldr := 6#4
  str := 7#4
  rti := 8#4
  not := 9#4
  ldi := 10#4
  sti := 11#4
  jmp := 12#4
  res := 13#4
  lea := 14#4
  trap := 15#4

/-- The default parameters of R7. The source fixes `pcStart` and the opcode of ADD only; the other values are the
spec's decisions D1, D2, D4, D5, D6, D8, D12 and D16 (assumption 3). -/
def config : Config where
  opcodes := opcodes
  pcStart := 0x3000#16
  kbsrAddr := 0xFE00#16
  kbdrAddr := 0xFE00#16
  kbdPoll := .query
  unknownTrap := .nop
  flPos := 0b001#3
  flZro := 0b010#3
  flNeg := 0b100#3
  tvGetc := 0x20#8
  tvOut := 0x21#8
  tvPuts := 0x22#8
  tvIn := 0x23#8
  tvPutsp := 0x24#8
  tvHalt := 0x25#8
  inPrompt := [0x45#8, 0x6E#8, 0x74#8, 0x65#8, 0x72#8, 0x20#8, 0x61#8, 0x20#8] ++
    [0x63#8, 0x68#8, 0x61#8, 0x72#8, 0x61#8, 0x63#8, 0x74#8, 0x65#8, 0x72#8, 0x3A#8, 0x20#8]
  haltNotice := [0x48#8, 0x41#8, 0x4C#8, 0x54#8, 0x0A#8]
  newline := 0x0A#8
  memInit := 0x0000#16

end Sys2Proof.Machine
end

