-- ==== Sys2Proof/Syntax.lean ====
section
/-! DEFINITION. The instructions: one constructor per row of spec/opcode_table.json (30_encoding.md R61, R66, R67). -/

namespace Sys2Proof

/-- The eight general registers (10_state.md R20). -/
inductive Reg where
  | r0 | r1 | r2 | r3 | r4 | r5 | r6 | r7
  deriving DecidableEq, Repr

/-- The instructions. Immediates and offsets are the raw fields; the meaning extends them (R63). -/
inductive Instr where
  /-- BR[n][z][p] #offset9: `nzp` is `ir[11:9]` (R130). -/
  | br (nzp : BitVec 3) (offset9 : BitVec 9)
  /-- ADD, register form (R100). -/
  | addReg (dr sr1 sr2 : Reg)
  /-- ADD, immediate form (R101). -/
  | addImm (dr sr1 : Reg) (imm5 : BitVec 5)
  /-- LD (R110). -/
  | ld (dr : Reg) (offset9 : BitVec 9)
  /-- ST (R111). -/
  | st (sr : Reg) (offset9 : BitVec 9)
  /-- JSR (R132). -/
  | jsr (offset11 : BitVec 11)
  /-- JSRR (R133). -/
  | jsrr (baseR : Reg)
  /-- AND, register form (R102). -/
  | andReg (dr sr1 sr2 : Reg)
  /-- AND, immediate form (R103). -/
  | andImm (dr sr1 : Reg) (imm5 : BitVec 5)
  /-- LDR (R112). -/
  | ldr (dr baseR : Reg) (offset6 : BitVec 6)
  /-- STR (R113). -/
  | str (sr baseR : Reg) (offset6 : BitVec 6)
  /-- RTI: reserved (R160). -/
  | rti
  /-- NOT (R104). -/
  | not (dr sr : Reg)
  /-- LDI (R114). -/
  | ldi (dr : Reg) (offset9 : BitVec 9)
  /-- STI (R115). -/
  | sti (sr : Reg) (offset9 : BitVec 9)
  /-- JMP; through R7 it is what RET names (R131). -/
  | jmp (baseR : Reg)
  /-- RES: reserved (R161). -/
  | res
  /-- LEA (R116). -/
  | lea (dr : Reg) (offset9 : BitVec 9)
  /-- TRAP GETC (R141). -/
  | trapGetc
  /-- TRAP OUT (R142). -/
  | trapOut
  /-- TRAP PUTS (R143). -/
  | trapPuts
  /-- TRAP IN (R144). -/
  | trapIn
  /-- TRAP PUTSP (R145). -/
  | trapPutsp
  /-- TRAP HALT (R146). -/
  | trapHalt
  /-- TRAP with a vector that is none of the six (R147). -/
  | trap (trapvector8 : BitVec 8)
  /-- RET: the table's alias row, another name of JMP R7. No word decodes to it (R71, R72; assumption 5). -/
  | ret
  deriving DecidableEq, Repr

end Sys2Proof
end

