-- ==== Sys2Proof/WellFormed.lean ====
section
/-! DEFINITION. Which terms of `Instr` words decode to. The types bound every field; the general TRAP row is narrower
than its field, and the alias row has no words of its own (30_encoding.md R67, R72). -/

namespace Sys2Proof

open Sys2Proof.Machine

/-- `v` selects one of the six trap routines (R67). -/
def isRoutineVector (v : Byte) : Bool :=
  v == config.tvGetc || v == config.tvOut || v == config.tvPuts || v == config.tvIn || v == config.tvPutsp ||
    v == config.tvHalt

/-- RET is an alias of JMP R7, and a TRAP with one of the six routine vectors is that routine's row. -/
def Instr.wellFormed : Instr → Bool
  | .ret => false
  | .trap v => !isRoutineVector v
  | _ => true

end Sys2Proof
end

