-- ==== Sys2Proof/Decode.lean ====
section
/-! DEFINITION. The decoder, total on every 16-bit word (30_encoding.md R60, R66, R67), and the encoder, from the
same tables. -/

namespace Sys2Proof

open Sys2Proof.Machine

/-- The register a 3-bit field selects by its number (10_state.md R20). -/
def Reg.ofBits (b : BitVec 3) : Reg :=
  match b.toNat with
  | 0 => .r0
  | 1 => .r1
  | 2 => .r2
  | 3 => .r3
  | 4 => .r4
  | 5 => .r5
  | 6 => .r6
  | _ => .r7

/-- The number of a register, as the 3-bit field that selects it. -/
def Reg.bits : Reg → BitVec 3
  | .r0 => 0#3
  | .r1 => 1#3
  | .r2 => 2#3
  | .r3 => 3#3
  | .r4 => 4#3
  | .r5 => 5#3
  | .r6 => 6#3
  | .r7 => 7#3

/-- `w[lo+n-1:lo]` (00_scope.md R8). -/
def bitsAt (lo n : Nat) (w : Word) : BitVec n := w.extractLsb' lo n

/-- The register selected by `w[lo+2:lo]`. -/
def regField (lo : Nat) (w : Word) : Reg := Reg.ofBits (bitsAt lo 3 w)

/-- Second-level decode of TRAP: the six routine rows are tested before the general one (R67, R72). -/
def decodeTrap (v : Byte) : Instr :=
  if v = config.tvGetc then .trapGetc
  else if v = config.tvOut then .trapOut
  else if v = config.tvPuts then .trapPuts
  else if v = config.tvIn then .trapIn
  else if v = config.tvPutsp then .trapPutsp
  else if v = config.tvHalt then .trapHalt
  else .trap v

/-- The instruction a word stands for (R60, R61, R66, R83), by its opcode number `w[15:12]` and, for ADD, AND and
JSR/JSRR, the mode bit. The sixteen opcode numbers are all of them, so the last case is TRAP. No word is refused, and
the alias row RET is skipped (R72). -/
def decode (w : Word) : Instr :=
  let op := bitsAt 12 4 w
  let n := config.opcodes
  if op = n.br then .br (bitsAt 9 3 w) (bitsAt 0 9 w)
  else if op = n.add then
    if bitsAt 5 1 w = 0#1 then .addReg (regField 9 w) (regField 6 w) (regField 0 w)
    else .addImm (regField 9 w) (regField 6 w) (bitsAt 0 5 w)
  else if op = n.ld then .ld (regField 9 w) (bitsAt 0 9 w)
  else if op = n.st then .st (regField 9 w) (bitsAt 0 9 w)
  else if op = n.jsr then if bitsAt 11 1 w = 1#1 then .jsr (bitsAt 0 11 w) else .jsrr (regField 6 w)
  else if op = n.and then
    if bitsAt 5 1 w = 0#1 then .andReg (regField 9 w) (regField 6 w) (regField 0 w)
    else .andImm (regField 9 w) (regField 6 w) (bitsAt 0 5 w)
  else if op = n.ldr then .ldr (regField 9 w) (regField 6 w) (bitsAt 0 6 w)
  else if op = n.str then .str (regField 9 w) (regField 6 w) (bitsAt 0 6 w)
  else if op = n.rti then .rti
  else if op = n.not then .not (regField 9 w) (regField 6 w)
  else if op = n.ldi then .ldi (regField 9 w) (bitsAt 0 9 w)
  else if op = n.sti then .sti (regField 9 w) (bitsAt 0 9 w)
  else if op = n.jmp then .jmp (regField 6 w)
  else if op = n.res then .res
  else if op = n.lea then .lea (regField 9 w) (bitsAt 0 9 w)
  else decodeTrap (bitsAt 0 8 w)

/-- The word of a TRAP with vector `v`. -/
def encodeTrap (v : Byte) : Word := config.opcodes.trap ++ 0b0000#4 ++ v

/-- The word of JMP. -/
def encodeJmp (baseR : Reg) : Word := config.opcodes.jmp ++ 0b000#3 ++ baseR.bits ++ 0b000000#6

/-- The word of an instruction (R66, R70): ignored bits are written 0, NOT's as ones. -/
def encode : Instr → Word
  | .br nzp off => config.opcodes.br ++ nzp ++ off
  | .addReg dr sr1 sr2 => config.opcodes.add ++ dr.bits ++ sr1.bits ++ 0b000#3 ++ sr2.bits
  | .addImm dr sr1 imm => config.opcodes.add ++ dr.bits ++ sr1.bits ++ 0b1#1 ++ imm
  | .ld dr off => config.opcodes.ld ++ dr.bits ++ off
  | .st sr off => config.opcodes.st ++ sr.bits ++ off
  | .jsr off => config.opcodes.jsr ++ 0b1#1 ++ off
  | .jsrr base => config.opcodes.jsr ++ 0b000#3 ++ base.bits ++ 0b000000#6
  | .andReg dr sr1 sr2 => config.opcodes.and ++ dr.bits ++ sr1.bits ++ 0b000#3 ++ sr2.bits
  | .andImm dr sr1 imm => config.opcodes.and ++ dr.bits ++ sr1.bits ++ 0b1#1 ++ imm
  | .ldr dr base off => config.opcodes.ldr ++ dr.bits ++ base.bits ++ off
  | .str sr base off => config.opcodes.str ++ sr.bits ++ base.bits ++ off
  | .rti => config.opcodes.rti ++ 0x000#12
  | .not dr sr => config.opcodes.not ++ dr.bits ++ sr.bits ++ 0b111111#6
  | .ldi dr off => config.opcodes.ldi ++ dr.bits ++ off
  | .sti sr off => config.opcodes.sti ++ sr.bits ++ off
  | .jmp base => encodeJmp base
  | .res => config.opcodes.res ++ 0x000#12
  | .lea dr off => config.opcodes.lea ++ dr.bits ++ off
  | .trapGetc => encodeTrap config.tvGetc
  | .trapOut => encodeTrap config.tvOut
  | .trapPuts => encodeTrap config.tvPuts
  | .trapIn => encodeTrap config.tvIn
  | .trapPutsp => encodeTrap config.tvPutsp
  | .trapHalt => encodeTrap config.tvHalt
  | .trap v => encodeTrap v
  | .ret => encodeJmp .r7

/-- The word whose low `nbits` bits are `w`, every bit above them 0. An instruction is one 16-bit cell (R60). -/
def tableWord (nbits w : Nat) : Word := BitVec.ofNat 16 (w % 2 ^ nbits)

/-- The instruction the decoder reads from a row's word, numbered as spec/opcode_table.json numbers its bits. An
instruction has 16 bits (R60), so a longer one is none of this machine. -/
def decodeTableWord (nbits w : Nat) : Option Instr :=
  if nbits ≤ 16 then some (decode (tableWord nbits w)) else none

end Sys2Proof
end

