-- ==== Sys2Proof/Machine/State.lean ====
section
/-! DEFINITION. The architectural state (10_state.md), as plain data, and its value after reset. -/

namespace Sys2Proof.Machine

/-- The eight general registers R0..R7 (R20). None is hardwired or aliased (R21). -/
structure Regs where
  r0 : Word
  r1 : Word
  r2 : Word
  r3 : Word
  r4 : Word
  r5 : Word
  r6 : Word
  r7 : Word
  deriving DecidableEq, Repr

/-- Memory: the listed cells by address, in one canonical form (`Memory.wf`); every other cell holds `MEM_INIT`.
The unit is the 16-bit cell, the machine's smallest (R31, R47; assumption 1). -/
abbrev Memory := List (Nat × Word)

/-- run_state (R29). -/
inductive RunState where
  | running
  | halted
  deriving DecidableEq, Repr

/-- halt_cause (R30). -/
inductive HaltCause where
  /-- NONE: still running. -/
  | none
  /-- HALT_TRAP: TRAP HALT executed. -/
  | haltTrap
  /-- RESERVED_RTI: the reserved-opcode fault of RTI. -/
  | reservedRti
  /-- RESERVED_RES: the reserved-opcode fault of RES. -/
  | reservedRes
  /-- SHUTDOWN: an external shutdown request was observed. -/
  | shutdown
  deriving DecidableEq, Repr

/-- Inside which TRAP routine the core still is: the step of that TRAP is not completed yet (R85; R15 allows the
split). -/
inductive Held where
  /-- Between instructions. -/
  | none
  /-- GETC waits for a byte (60_exceptions.md R185). -/
  | getc
  /-- IN waits for a byte (60_exceptions.md R185). -/
  | inEcho
  /-- PUTS has read all of memory and met no zero cell (R143). -/
  | puts
  /-- PUTSP has read all of memory and met no zero cell (R145). -/
  | putsp
  deriving DecidableEq, Repr

/-- The state of the core, and of the console and shutdown line as far as the core meets them (R33). -/
structure State where
  /-- R0..R7 (R20). -/
  regs : Regs
  /-- PC (R23). -/
  pc : Word
  /-- COND, 3 bits (R26). -/
  cond : BitVec 3
  /-- M (R31). -/
  mem : Memory
  /-- run_state (R29). -/
  runState : RunState
  /-- halt_cause (R30). -/
  haltCause : HaltCause
  /-- The TRAP routine that has not ended yet, a held state (R85, R143, R185; assumptions 6 and 12). -/
  held : Held
  /-- Console input stream: the bytes not yet delivered to the core, next first (R33 (d), R89). -/
  conIn : List Byte
  /-- Console output stream: the bytes written, oldest first (R33 (d), R91). -/
  conOut : List Byte
  /-- shutdown_req, a level (R92). -/
  shutdownReq : Bool
  /-- MODEL'S OWN: answers to the coming polls that the environment has settled (R90; assumption 9). -/
  pollDraws : List Bool
  /-- MODEL'S OWN: the number of polls made, the index of the free value `Config.pollReady` (assumption 9). -/
  pollCount : Nat
  deriving DecidableEq, Repr

/-- The reasons the model stops. The core's own fault (R171) is none of them: it is taken, as a next state. -/
inductive Fault where
  /-- Raised by TRAP with an unknown vector where `UNKNOWN_TRAP` is fatal (93_implementation_defined.md U3), which
  `config` does not choose. Safe: the model stops where the machine would go on. -/
  | unknownTrap
  deriving DecidableEq, Repr

/-- No meaning for the instruction. -/
inductive Refusal where
  /-- Raised by `exec` for an instruction that has no meaning yet. Safe: nothing runs. No arm raises it. -/
  | notModelled (mnemonic : String)
  deriving DecidableEq, Repr

/-- What a meaning and a step answer. -/
abbrev Result := Host.Outcome State Fault Refusal

/-- The machine right after reset, phases 1, 3 and 4 of R190, with no image loaded (phase 2 is `State.boot`). -/
def State.reset : State where
  regs := ⟨0, 0, 0, 0, 0, 0, 0, 0⟩
  pc := config.pcStart
  cond := 0b000#3
  mem := []
  runState := .running
  haltCause := .none
  held := .none
  conIn := []
  conOut := []
  shutdownReq := false
  pollDraws := []
  pollCount := 0

end Sys2Proof.Machine
end

