-- ==== Sys2Proof/Machine/Ops.lean ====
section
/-! DEFINITION. The named operations over registers, memory, the console and the run state. Every meaning is written
over these. -/

namespace Sys2Proof.Machine

/-! Registers (10_state.md R20). -/

/-- `x[r]` of a register file. -/
def Regs.get (f : Regs) : Reg → Word
  | .r0 => f.r0
  | .r1 => f.r1
  | .r2 => f.r2
  | .r3 => f.r3
  | .r4 => f.r4
  | .r5 => f.r5
  | .r6 => f.r6
  | .r7 => f.r7

/-- `x[r] <- v` on a register file. -/
def Regs.set (f : Regs) (r : Reg) (v : Word) : Regs :=
  match r with
  | .r0 => { f with r0 := v }
  | .r1 => { f with r1 := v }
  | .r2 => { f with r2 := v }
  | .r3 => { f with r3 := v }
  | .r4 => { f with r4 := v }
  | .r5 => { f with r5 := v }
  | .r6 => { f with r6 := v }
  | .r7 => { f with r7 := v }

/-- `x[r]` (R11). -/
def State.reg (r : Reg) (s : State) : Word := s.regs.get r

/-- `x[r] <- v` (R11). -/
def State.setReg (r : Reg) (v : Word) (s : State) : State := { s with regs := s.regs.set r v }

/-- `pc <- v` (R11). -/
def State.setPc (v : Word) (s : State) : State := { s with pc := v }

/-- `cond <- v` (R86). -/
def State.setCond (v : BitVec 3) (s : State) : State := { s with cond := v }

/-! Memory as plain storage (10_state.md R31). -/

/-- What a cell holds that nothing is listed for: `MEM_INIT` (R31, R193). -/
def Memory.unlisted : Word := config.memInit

/-- The word stored at address `a`. -/
def Memory.read : Memory → Nat → Word
  | [], _ => Memory.unlisted
  | (k, w) :: rest, a => if k = a then w else Memory.read rest a

/-- `m` with an entry for address `a` in front, left out where it says what an unlisted cell holds anyway. -/
def Memory.cons (a : Nat) (v : Word) (m : Memory) : Memory := if v = Memory.unlisted then m else (a, v) :: m

/-- Store `v` at address `a`, keeping the canonical form. -/
def Memory.write : Memory → Nat → Word → Memory
  | [], a, v => Memory.cons a v []
  | (k, w) :: rest, a, v =>
    if a < k then Memory.cons a v ((k, w) :: rest)
    else if a = k then Memory.cons a v rest
    else (k, w) :: Memory.write rest a v

/-- The canonical form from address `lo` on: addresses strictly rising and below 65536, no entry that says what an
unlisted cell holds. -/
def Memory.wfFrom : Nat → Memory → Bool
  | _, [] => true
  | lo, (k, w) :: rest =>
    decide (lo ≤ k) && decide (k < 65536) && decide (w ≠ Memory.unlisted) && Memory.wfFrom (k + 1) rest

/-- The canonical form of memory: equal memories are equal lists. -/
def Memory.wf (m : Memory) : Bool := Memory.wfFrom 0 m

/-- `M[a]` as plain storage (R11): no side effect. -/
def State.cell (a : Word) (s : State) : Word := s.mem.read a.toNat

/-- `M[a] <- v` as plain storage (R11). -/
def State.setCell (a v : Word) (s : State) : State := { s with mem := s.mem.write a.toNat v }

/-! The end of a run (10_state.md R29, R30; 60_exceptions.md R171). -/

/-- The numeric code of a halt cause (R30). -/
def HaltCause.code : HaltCause → Nat
  | .none => 0
  | .haltTrap => 1
  | .reservedRti => 2
  | .reservedRes => 3
  | .shutdown => 4

/-- `halt(cause)` (R11): the one way a run ends. -/
def halt (cause : HaltCause) (s : State) : State := { s with runState := .halted, haltCause := cause }

/-- The two reserved opcodes (R171). -/
inductive Reserved where
  | rti
  | res
  deriving DecidableEq, Repr

/-- TAKING THE EXCEPTION: `raise ReservedOpcode(name)` (R171), the machine's only one. It records the cause and stops
the run; it saves no pc and no status, changes no mode and enters no handler (R178). There is no return from it:
RTI is itself reserved (R179). -/
def raiseReserved (name : Reserved) (s : State) : State :=
  match name with
  | .rti => halt .reservedRti s
  | .res => halt .reservedRes s

/-! The console (40_execution_cycle.md R89 to R91). -/

/-- `ConsoleWriteByte` for each byte of `bs`, in order (R91, D24). -/
def writeBytes (bs : List Byte) (s : State) : State := { s with conOut := s.conOut ++ bs }

/-- `ConsoleWriteByte(b)` (R91). -/
def consoleWriteByte (b : Byte) (s : State) : State := writeBytes [b] s

/-- Whether the environment answers the poll that comes now with a byte, if it has one (R90; assumption 9). -/
def State.pollReady (s : State) : Bool :=
  match s.pollDraws with
  | d :: _ => d
  | [] => Config.pollReady s.pollCount

/-- The state after a poll was made: one answer is used up. -/
def State.usePoll (s : State) : State := { s with pollDraws := s.pollDraws.tail, pollCount := s.pollCount + 1 }

/-- `ConsolePoll()` under the contract `KBD_POLL` of `c` (R90): never blocks; `some b` takes the next undelivered
byte, `none` takes nothing. -/
def consolePoll (c : Config) (s : State) : Option Byte × State :=
  match c.kbdPoll, s.conIn with
  | .query, b :: rest => if s.pollReady then (some b, { s.usePoll with conIn := rest }) else (none, s.usePoll)
  | .query, [] | .never, _ => (none, s.usePoll)

/-- `ConsoleRequestChar()` inside the routine `w`, evaluated now (R89): the shutdown request wins over a byte (R177)
and abandons the wait; a byte is taken and the routine goes on with `resume`; otherwise the core waits, a held state
(R85 (c); assumption 6). -/
def requestChar (w : Held) (resume : Byte → State → State) (s : State) : State :=
  if s.shutdownReq then halt .shutdown { s with held := .none }
  else match s.conIn with
    | c :: rest => resume c { s with held := .none, conIn := rest }
    | [] => { s with held := w }

/-! Memory access (20_memory.md R40 to R45). -/

/-- A byte as a word, `zext_16` (R10). -/
def zext (b : Byte) : Word := b.setWidth 16

/-- `KbdLatch()` with the parameters of `c` (R43; D7: whole-word writes, the status first). -/
def kbdLatchIn (c : Config) (s : State) : State :=
  match consolePoll c s with
  | (some ch, s') => (s'.setCell c.kbsrAddr 0x8000#16).setCell c.kbdrAddr (zext ch)
  | (none, s') => s'.setCell c.kbsrAddr 0x0000#16

/-- `MemRead(a, 1)` with the parameters of `c` (R41): the word stored AFTER the latch update. -/
def memReadIn (c : Config) (a : Word) (s : State) : Word × State :=
  let s' := if a = c.kbsrAddr then kbdLatchIn c s else s
  (s'.cell a, s')

/-- `MemRead(a, 1)` (R41): the value and the state after it. Fetch, loads, pointer reads and string reads all use
it (R40, R45). -/
def memRead (a : Word) (s : State) : Word × State := memReadIn config a s

/-- `MemWrite(a, 1, v)` (R42): plain storage at every address, the keyboard's included. -/
def memWrite (a v : Word) (s : State) : State := s.setCell a v

/-! The fetch (40_execution_cycle.md R81, R82). -/

/-- `ir <- MemRead(pc, 1)`, then `pc <- pc + 1`. -/
def fetch (s : State) : Word × State :=
  let r := memRead s.pc s
  (r.1, r.2.setPc (s.pc + 1))

end Sys2Proof.Machine
end

