-- ==== Sys2Proof/Machine/Operands.lean ====
section
/-! DEFINITION. Operand forms and effective addresses (30_encoding.md R63, R64; 42_data_movement.md R117). In every
one `s.pc` is the incremented pc (R12). -/

namespace Sys2Proof.Machine

/-- `sext_N` (R10). -/
def sext {n : Nat} (v : BitVec n) : Word := v.signExtend 16

/-- pc-relative: `pc + sext_9(offset9)` (LD, ST, LDI, STI, LEA, BR). -/
def ea9 (offset9 : BitVec 9) (s : State) : Word := s.pc + sext offset9

/-- base plus offset: `x[baseR] + sext_6(offset6)` (LDR, STR). -/
def ea6 (baseR : Reg) (offset6 : BitVec 6) (s : State) : Word := s.reg baseR + sext offset6

/-- The target of JSR: `pc + sext_11(offset11)` (R132). -/
def target11 (offset11 : BitVec 11) (s : State) : Word := s.pc + sext offset11

end Sys2Proof.Machine
end

