-- ==== Sys2Proof/Machine/Control.lean ====
section
/-! DEFINITION. BR, JMP, RET, JSR, JSRR (43_control.md). -/

namespace Sys2Proof.Machine

/-- BR[n][z][p] #offset9 (R130): `(ir[11:9] & cond) != 0` (D3). -/
def execBr (nzp : BitVec 3) (offset9 : BitVec 9) (s : State) : Result :=
  .next (if nzp &&& s.cond = 0b000#3 then s else s.setPc (ea9 offset9 s))

/-- `pc <- x[baseR]`: JMP and RET (R131). -/
def jumpThrough (baseR : Reg) (s : State) : State := s.setPc (s.reg baseR)

/-- JMP BaseR (R131). -/
def execJmp (baseR : Reg) (s : State) : Result := .next (jumpThrough baseR s)

/-- RET: JMP R7 (R71, R131). -/
def execRet (s : State) : Result := .next (jumpThrough .r7 s)

/-- `x[7] <- pc`: the link of JSR and JSRR (R132, R133). -/
def linkR7 (s : State) : State := s.setReg .r7 s.pc

/-- JSR #offset11 (R132). -/
def execJsr (offset11 : BitVec 11) (s : State) : Result := .next ((linkR7 s).setPc (target11 offset11 s))

/-- JSRR BaseR (R133): the link is written FIRST, so JSRR R7 falls through. -/
def execJsrr (baseR : Reg) (s : State) : Result := .next (jumpThrough baseR (linkR7 s))

end Sys2Proof.Machine
end

