-- ==== Sys2Proof/Machine/Flags.lean ====
section
/-! DEFINITION. The flag computation (40_execution_cycle.md R86). -/

namespace Sys2Proof.Machine

/-- The flag value of a 16-bit value: ZRO if zero, NEG if its top bit is 1, else POS. -/
def flagsOf (v : Word) : BitVec 3 :=
  if v = 0x0000#16 then config.flZro
  else if v.getLsbD 15 then config.flNeg
  else config.flPos

/-- `setcc(i)`: from the value register `i` holds now. -/
def setcc (i : Reg) (s : State) : State := s.setCond (flagsOf (s.reg i))

/-- `x[dr] <- v`, then `setcc(dr)`: the end of ADD, AND, NOT, LD, LDI, LDR and LEA (R86). -/
def writeDest (dr : Reg) (v : Word) (s : State) : State := setcc dr (s.setReg dr v)

end Sys2Proof.Machine
end

