-- ==== Sys2Proof/Machine/DataMove.lean ====
section
/-! DEFINITION. LD, ST, LDR, STR, LDI, STI, LEA (42_data_movement.md). -/

namespace Sys2Proof.Machine

/-- `x[dr] <- MemRead(ea, 1); setcc(dr)`: the end of LD, LDR and LDI. -/
def loadFrom (dr : Reg) (ea : Word) (s : State) : State :=
  let r := memRead ea s
  writeDest dr r.1 r.2

/-- LD DR, #offset9 (R110). -/
def execLd (dr : Reg) (offset9 : BitVec 9) (s : State) : Result := .next (loadFrom dr (ea9 offset9 s) s)

/-- ST SR, #offset9 (R111). -/
def execSt (sr : Reg) (offset9 : BitVec 9) (s : State) : Result := .next (memWrite (ea9 offset9 s) (s.reg sr) s)

/-- LDR DR, BaseR, #offset6 (R112): the base is read before DR is written. -/
def execLdr (dr baseR : Reg) (offset6 : BitVec 6) (s : State) : Result := .next (loadFrom dr (ea6 baseR offset6 s) s)

/-- STR SR, BaseR, #offset6 (R113). -/
def execStr (sr baseR : Reg) (offset6 : BitVec 6) (s : State) : Result :=
  .next (memWrite (ea6 baseR offset6 s) (s.reg sr) s)

/-- LDI DR, #offset9 (R114): first the pointer, then the data; each read goes through MemRead. -/
def execLdi (dr : Reg) (offset9 : BitVec 9) (s : State) : Result :=
  let p := memRead (ea9 offset9 s) s
  .next (loadFrom dr p.1 p.2)

/-- STI SR, #offset9 (R115): first the pointer, then the store. -/
def execSti (sr : Reg) (offset9 : BitVec 9) (s : State) : Result :=
  let p := memRead (ea9 offset9 s) s
  .next (memWrite p.1 (p.2.reg sr) p.2)

/-- LEA DR, #offset9 (R116): no cell is read; the flags are set from the address. -/
def execLea (dr : Reg) (offset9 : BitVec 9) (s : State) : Result := .next (writeDest dr (ea9 offset9 s) s)

end Sys2Proof.Machine
end

