-- ==== Sys2Proof/Machine/Operate.lean ====
section
/-! DEFINITION. ADD, AND, NOT (41_operate.md). -/

namespace Sys2Proof.Machine

/-- ADD DR, SR1, SR2 (R100). -/
def execAddReg (dr sr1 sr2 : Reg) (s : State) : Result := .next (writeDest dr (s.reg sr1 + s.reg sr2) s)

/-- ADD DR, SR1, #imm5 (R101). -/
def execAddImm (dr sr1 : Reg) (imm5 : BitVec 5) (s : State) : Result := .next (writeDest dr (s.reg sr1 + sext imm5) s)

/-- AND DR, SR1, SR2 (R102). -/
def execAndReg (dr sr1 sr2 : Reg) (s : State) : Result := .next (writeDest dr (s.reg sr1 &&& s.reg sr2) s)

/-- AND DR, SR1, #imm5 (R103). -/
def execAndImm (dr sr1 : Reg) (imm5 : BitVec 5) (s : State) : Result :=
  .next (writeDest dr (s.reg sr1 &&& sext imm5) s)

/-- NOT DR, SR (R104). -/
def execNot (dr sr : Reg) (s : State) : Result := .next (writeDest dr (~~~ s.reg sr) s)

end Sys2Proof.Machine
end

