-- ==== Sys2Proof/Machine/Reserved.lean ====
section
/-! DEFINITION. RTI and RES (45_reserved.md): the fatal reserved-opcode fault, taken. -/

namespace Sys2Proof.Machine

/-- RTI (R160). -/
def execRti (s : State) : Result := .next (raiseReserved .rti s)

/-- RES (R161). -/
def execRes (s : State) : Result := .next (raiseReserved .res s)

end Sys2Proof.Machine
end

