-- ==== Sys2Proof/Machine/Trap.lean ====
section
/-! DEFINITION. The TRAP rows: the six routines and the unknown vector (44_trap.md). Each runs inside the TRAP
instruction's own step; none saves or restores anything (R140, R178). -/

namespace Sys2Proof.Machine

/-- `x[r][7:0]`, or a cell's low byte. -/
def lowByte (v : Word) : Byte := v.extractLsb' 0 8

/-- The high byte of a cell. -/
def highByte (v : Word) : Byte := v.extractLsb' 8 8

/-! The input routines. -/

/-- What GETC does with its byte (R141): no echo, no flags. -/
def getcTakes (c : Byte) (s : State) : State := s.setReg .r0 (zext c)

/-- What IN does with its byte (R144): echo, newline, result. -/
def inTakes (c : Byte) (s : State) : State :=
  (consoleWriteByte config.newline (consoleWriteByte c s)).setReg .r0 (zext c)

/-- The wait of GETC, evaluated now; each step of a waiting core does it again. -/
def awaitGetc (s : State) : State := requestChar .getc getcTakes s

/-- The wait of IN, evaluated now; each step of a waiting core does it again. -/
def awaitIn (s : State) : State := requestChar .inEcho inTakes s

/-- TRAP GETC (R141). -/
def execTrapGetc (s : State) : Result := .next (awaitGetc s)

/-- TRAP IN (R144): the prompt is written before the wait. -/
def execTrapIn (s : State) : Result := .next (awaitIn (writeBytes config.inPrompt s))

/-! The output routines. -/

/-- TRAP OUT (R142). -/
def execTrapOut (s : State) : Result := .next (consoleWriteByte (lowByte (s.reg .r0)) s)

/-- What PUTS writes for a nonzero cell (R143). -/
def putsBytes (w : Word) : List Byte := [lowByte w]

/-- What PUTSP writes for a nonzero cell (R145): the low byte always, the high byte if it is not zero. -/
def putspBytes (w : Word) : List Byte := if highByte w = 0x00#8 then [lowByte w] else [lowByte w, highByte w]

/-- The string walk of PUTS and PUTSP from address `a`, at most `fuel` reads (R143, R145): read a cell, stop at a
whole zero cell, write its bytes, go on at the next address modulo 65536. The Bool: a zero cell was read. -/
def walkString (emit : Word → List Byte) : Nat → Word → State → Bool × State
  | 0, _, s => (false, s)
  | fuel + 1, a, s =>
    let r := memRead a s
    if r.1 = 0x0000#16 then (true, r.2) else walkString emit fuel (a + 1) (writeBytes (emit r.1) r.2)

/-- The reads of one lap of memory, after which the walk is back at the address it began with. -/
def lapReads : Nat := 65536

/-- PUTS and PUTSP from `x[0]`, which is not modified (D15): one lap. A lap that reads no zero cell leaves the core
inside the routine, to go round again: the routine ends only at a zero cell (R85, R143; assumption 12). -/
def putString (routine : Held) (emit : Word → List Byte) (s : State) : State :=
  let r := walkString emit lapReads (s.reg .r0) s
  if r.1 then r.2 else { r.2 with held := routine }

/-- A lap of PUTS (R143). -/
def lapPuts (s : State) : State := putString .puts putsBytes s

/-- A lap of PUTSP (R145). -/
def lapPutsp (s : State) : State := putString .putsp putspBytes s

/-- TRAP PUTS (R143). -/
def execTrapPuts (s : State) : Result := .next (lapPuts s)

/-- TRAP PUTSP (R145). -/
def execTrapPutsp (s : State) : Result := .next (lapPutsp s)

/-! HALT and the unknown vector. -/

/-- TRAP HALT (R146): the notice, then the end of the run. -/
def execTrapHalt (s : State) : Result := .next (halt .haltTrap (writeBytes config.haltNotice s))

/-- An unknown vector under the `UNKNOWN_TRAP` of `c` (R147, D5; 93_implementation_defined.md U3). -/
def unknownTrapIn (c : Config) (s : State) : Result :=
  match c.unknownTrap with
  | .nop => .next s
  | .fatal => .fault .unknownTrap

/-- TRAP with an unknown vector (R147). -/
def execTrap (_trapvector8 : BitVec 8) (s : State) : Result := unknownTrapIn config s

end Sys2Proof.Machine
end

