-- ==== Sys2Proof/Machine/Cycle.lean ====
section
/-! DEFINITION. One pass of the Execution Loop (40_execution_cycle.md R80 to R85). -/

namespace Sys2Proof.Machine

/-- Fetch, increment, decode, dispatch (R81 to R83). -/
def runInstruction (s : State) : Result :=
  let f := fetch s
  exec (decode f.1) f.2

/-- A running core between instructions: the shutdown request is sampled before the fetch (R84, R92). -/
def beginStep (s : State) : Result := if s.shutdownReq then .next (halt .shutdown s) else runInstruction s

/-- One step (R84, R85). `Halted` is absorbing (R29; assumption 11); a core that waits for a byte evaluates its wait
again (R85 (c), R89; assumption 6); a core inside PUTS or PUTSP goes round again, without a look at the shutdown
request (R92; assumption 12). -/
def cycle (s : State) : Result :=
  match s.runState with
  | .halted => .next s
  | .running =>
    match s.held with
    | .none => beginStep s
    | .getc => .next (awaitGetc s)
    | .inEcho => .next (awaitIn s)
    | .puts => .next (lapPuts { s with held := .none })
    | .putsp => .next (lapPutsp { s with held := .none })

/-- `s` with `w` in the cell the next step fetches from, and with the core running between instructions and no
shutdown requested, so that the next step does fetch. Where the pc is KBSR_ADDR nothing placed survives the fetch
(R45): the keyboard latch rewrites that cell. -/
def placeFetchWord (w : Word) (s : State) : State :=
  { s.setCell s.pc w with runState := .running, haltCause := .none, held := .none, shutdownReq := false }

end Sys2Proof.Machine
end

