-- ==== Sys2Proof/Machine/Environment.lean ====
section
/-! DEFINITION. What the environment may do to the machine between two steps (00_scope.md R14; 40_execution_cycle.md
R88 to R92). None of it changes the core's own state (60_exceptions.md R175). -/

namespace Sys2Proof.Machine

/-- A byte arrives at the end of the console input stream. -/
def State.receive (b : Byte) (s : State) : State := { s with conIn := s.conIn ++ [b] }

/-- The shutdown request rises. It is not lowered again (R92, D18). -/
def State.raiseShutdown (s : State) : State := { s with shutdownReq := true }

/-- The environment settles its answers to some more polls (R90). -/
def State.settlePolls (answers : List Bool) (s : State) : State := { s with pollDraws := s.pollDraws ++ answers }

end Sys2Proof.Machine
end

