-- ==== Sys2Proof/Machine/Loader.lean ====
section
/-! DEFINITION. The program image and the layout the loader leaves (70_reset_and_hazards.md R190, R194, R195). The
loader is an external agent: its stores are plain stores, before the run. -/

namespace Sys2Proof.Machine

/-- Big-endian words; a last odd byte is ignored (R194, R195). -/
def wordsOf : List Byte → List Word
  | hi :: lo :: rest => (hi ++ lo) :: wordsOf rest
  | _ => []

/-- The origin and the data words of an image; `none` is a load fault: shorter than two bytes (R195). -/
def parseImage (bytes : List Byte) : Option (Word × List Word) :=
  match wordsOf bytes with
  | origin :: data => some (origin, data)
  | [] => none

/-- Words stored from address `a` on, modulo 65536 (R194). -/
def loadWords : Word → List Word → State → State
  | _, [], s => s
  | a, w :: ws, s => loadWords (a + 1) ws (s.setCell a w)

/-- Reset with an image loaded, R190 phases 1 to 4. `none`: the load failed and the core never runs (R173). -/
def State.boot (bytes : List Byte) : Option State :=
  match parseImage bytes with
  | some (origin, data) => some (loadWords origin data State.reset)
  | none => none

end Sys2Proof.Machine
end

