-- ==== Sys2Proof/Safety.lean ====
section
/-! DEFINITION. The terms claims use: the invariant, the reachable states, and what "unchanged" says. -/

namespace Sys2Proof.Machine

/-- What holds of every state of a run. -/
structure State.Inv (s : State) : Prop where
  /-- Memory is in its one canonical form. -/
  memory : s.mem.wf = true
  /-- The only values `cond` can ever take (R26). -/
  flags : s.cond = 0b000#3 ∨ s.cond = config.flPos ∨ s.cond = config.flZro ∨ s.cond = config.flNeg
  /-- `halt_cause` is NONE exactly while running (R30). -/
  cause : s.haltCause = .none ↔ s.runState = .running
  /-- Only a running core is inside a routine (R85, R185). -/
  unfinished : s.held ≠ .none → s.runState = .running

/-- `cond` is one-hot: one of the three values a flag update sets (R87). -/
def State.flagsOneHot (s : State) : Prop := s.cond = config.flPos ∨ s.cond = config.flZro ∨ s.cond = config.flNeg

/-- Running, between instructions, no shutdown request: the states whose step executes an instruction. -/
def State.ready (s : State) : Prop := s.runState = .running ∧ s.held = .none ∧ s.shutdownReq = false

/-- The states of a run: an image is loaded, steps are taken, and the environment acts between them. -/
inductive Reachable : State → Prop where
  | reset : Reachable State.reset
  | boot {bytes : List Byte} {s : State} : State.boot bytes = some s → Reachable s
  | step {s t : State} : Reachable s → Machine.step s = .next t → Reachable t
  | receive {s : State} (b : Byte) : Reachable s → Reachable (s.receive b)
  | raiseShutdown {s : State} : Reachable s → Reachable s.raiseShutdown
  | settlePolls {s : State} (answers : List Bool) : Reachable s → Reachable (s.settlePolls answers)

/-! Frames. -/

/-- Every general register but those in `except` is unchanged. -/
def SameRegs (except : List Reg) (s t : State) : Prop := ∀ r, r ∉ except → t.reg r = s.reg r

/-- Every cell of memory but those in `except` is unchanged. -/
def SameCells (except : List Word) (s t : State) : Prop := ∀ a, a ∉ except → t.cell a = s.cell a

/-- Console, shutdown line and poll answers are unchanged. -/
def SameEnv (s t : State) : Prop :=
  t.conIn = s.conIn ∧ t.conOut = s.conOut ∧ t.shutdownReq = s.shutdownReq ∧ t.pollDraws = s.pollDraws ∧
    t.pollCount = s.pollCount

/-- The run state, its cause and the routine the core is inside are unchanged. -/
def SameRun (s t : State) : Prop := t.runState = s.runState ∧ t.haltCause = s.haltCause ∧ t.held = s.held

/-- Nothing but registers in `regs`, cells in `cells`, the pc and the flags differs. -/
def OnlyCore (regs : List Reg) (cells : List Word) (s t : State) : Prop :=
  SameRegs regs s t ∧ SameCells cells s t ∧ SameEnv s t ∧ SameRun s t

/-! Memory accesses. -/

/-- One access (R40). -/
inductive Access where
  | read (a : Word)
  | write (a v : Word)
  deriving DecidableEq, Repr

/-- The state after an access, with the parameters of `c`. -/
def Access.run (c : Config) (s : State) : Access → State
  | .read a => (memReadIn c a s).2
  | .write a v => memWrite a v s

/-! Fields of an instruction word, as numbers: `w[lo+n-1:lo]` (R8) and `sext_N` (R10). -/

/-- `w[lo+n-1:lo]` as an unsigned number. -/
def fieldAt (lo n : Nat) (w : Word) : Nat := w.toNat / 2 ^ lo % 2 ^ n

/-- The register whose number is `w[lo+2:lo]`. -/
def regAt (lo : Nat) (w : Word) : Reg :=
  [Reg.r0, .r1, .r2, .r3, .r4, .r5, .r6, .r7].getD (fieldAt lo 3 w) .r0

/-- R10's formula: `v` if `v[N-1] = 0`, else `v + 65536 - 2^N`. -/
def sextNat (n v : Nat) : Nat := if v < 2 ^ (n - 1) then v else v + 65536 - 2 ^ n

/-- `base + sext_n(w[n-1:0])` modulo 65536 (R117, R132). -/
def relTo (base : Word) (n : Nat) (w : Word) : Word := BitVec.ofNat 16 (base.toNat + sextNat n (fieldAt 0 n w))

/-- `cond` after `setcc` of a register that holds `v`: Z iff all bits are 0, N iff bit 15 is 1, P otherwise. -/
def FlagsFor (v : Word) (t : State) : Prop :=
  (v.toNat = 0 → t.cond = config.flZro) ∧ (32768 ≤ v.toNat → t.cond = config.flNeg) ∧
    (0 < v.toNat → v.toNat < 32768 → t.cond = config.flPos)

/-- `t` is `s` with the number `v` in register `dr`, the flags set from it, and nothing else changed. -/
def WroteDest (dr : Reg) (v : Nat) (s t : State) : Prop :=
  (t.reg dr).toNat = v ∧ FlagsFor (t.reg dr) t ∧ t.pc = s.pc ∧ OnlyCore [dr] [] s t

/-- `t` is `s` with the word `v` in the cell at address `a`, and nothing else changed. -/
def StoredCell (a v : Word) (s t : State) : Prop :=
  t.cell a = v ∧ t.pc = s.pc ∧ t.cond = s.cond ∧ OnlyCore [] [a] s t

/-- `t` is `s` with the pc at `target`, and nothing else changed but the registers in `regs`. -/
def Jumped (regs : List Reg) (target : Word) (s t : State) : Prop :=
  t.pc = target ∧ t.cond = s.cond ∧ OnlyCore regs [] s t

/-- `t` is `s` with the run ended for `cause`, and nothing else of the core changed. -/
def Ended (cause : HaltCause) (s t : State) : Prop :=
  t.runState = .halted ∧ t.haltCause = cause ∧ t.pc = s.pc ∧ t.cond = s.cond ∧ SameRegs [] s t ∧ SameCells [] s t

/-- The pc, the flags, memory, the shutdown line and the poll answers are unchanged: what an input or output routine
leaves alone. -/
def SameRest (s t : State) : Prop :=
  t.pc = s.pc ∧ t.cond = s.cond ∧ SameCells [] s t ∧ t.shutdownReq = s.shutdownReq ∧ t.pollDraws = s.pollDraws ∧
    t.pollCount = s.pollCount

end Sys2Proof.Machine

namespace Sys2Proof

open Sys2Proof.Machine

/-! What each form may touch. -/

/-- The register a form writes (the table of R22). -/
def Instr.writes : Instr → List Reg
  | .addReg dr _ _ | .addImm dr _ _ | .andReg dr _ _ | .andImm dr _ _ | .not dr _ => [dr]
  | .ld dr _ | .ldi dr _ | .lea dr _ | .ldr dr _ _ => [dr]
  | .jsr _ | .jsrr _ => [.r7]
  | .trapGetc | .trapIn => [.r0]
  | .br _ _ | .st _ _ | .str _ _ _ | .sti _ _ | .jmp _ | .ret | .rti | .res => []
  | .trapOut | .trapPuts | .trapPutsp | .trapHalt | .trap _ => []

/-- The registers a form reads (the table of R22). -/
def Instr.reads : Instr → List Reg
  | .addReg _ sr1 sr2 | .andReg _ sr1 sr2 => [sr1, sr2]
  | .addImm _ sr1 _ | .andImm _ sr1 _ => [sr1]
  | .not _ sr | .st sr _ | .sti sr _ => [sr]
  | .ldr _ baseR _ | .jmp baseR | .jsrr baseR => [baseR]
  | .str sr baseR _ => [sr, baseR]
  | .ret => [.r7]
  | .trapOut | .trapPuts | .trapPutsp => [.r0]
  | .br _ _ | .ld _ _ | .ldi _ _ | .lea _ _ | .jsr _ | .rti | .res => []
  | .trapGetc | .trapIn | .trapHalt | .trap _ => []

/-- The seven instructions that set the flags (R27). -/
def Instr.setsFlags : Instr → Bool
  | .addReg _ _ _ | .addImm _ _ _ | .andReg _ _ _ | .andImm _ _ _ | .not _ _ => true
  | .ld _ _ | .ldi _ _ | .ldr _ _ _ | .lea _ _ => true
  | .br _ _ | .st _ _ | .str _ _ _ | .sti _ _ | .jsr _ | .jsrr _ | .jmp _ | .ret | .rti | .res => false
  | .trapGetc | .trapOut | .trapPuts | .trapIn | .trapPutsp | .trapHalt | .trap _ => false

/-- The address ST, STR and STI store to, by the functions their meanings use (R57). -/
def Instr.storesTo : Instr → State → Option Word
  | .st _ off, s => some (ea9 off s)
  | .str _ base off, s => some (ea6 base off s)
  | .sti _ off, s => some (memRead (ea9 off s) s).1
  | .br _ _, _ | .addReg _ _ _, _ | .addImm _ _ _, _ | .andReg _ _ _, _ | .andImm _ _ _, _ | .not _ _, _ => none
  | .ld _ _, _ | .ldi _ _, _ | .ldr _ _ _, _ | .lea _ _, _ | .jsr _, _ | .jsrr _, _ | .jmp _, _ | .ret, _ => none
  | .rti, _ | .res, _ | .trapGetc, _ | .trapOut, _ | .trapPuts, _ | .trapIn, _ | .trapPutsp, _ => none
  | .trapHalt, _ | .trap _, _ => none

/-- The register ST, STR and STI store (R57). -/
def Instr.storesFrom : Instr → Option Reg
  | .st sr _ | .str sr _ _ | .sti sr _ => some sr
  | .br _ _ | .addReg _ _ _ | .addImm _ _ _ | .andReg _ _ _ | .andImm _ _ _ | .not _ _ => none
  | .ld _ _ | .ldi _ _ | .ldr _ _ _ | .lea _ _ | .jsr _ | .jsrr _ | .jmp _ | .ret | .rti | .res => none
  | .trapGetc | .trapOut | .trapPuts | .trapIn | .trapPutsp | .trapHalt | .trap _ => none

/-- The bits of a word that the row of `i` reads; the others are ignored (R61, D21). -/
def Instr.readBits : Instr → Word
  | .addReg _ _ _ | .andReg _ _ _ => 0xFFE7#16
  | .not _ _ => 0xFFC0#16
  | .jmp _ | .ret => 0xF1C0#16
  | .jsrr _ => 0xF9C0#16
  | .rti | .res => 0xF000#16
  | .trapGetc | .trapOut | .trapPuts | .trapIn | .trapPutsp | .trapHalt | .trap _ => 0xF0FF#16
  | .br _ _ | .addImm _ _ _ | .andImm _ _ _ | .ld _ _ | .st _ _ | .ldi _ _ | .sti _ _ | .lea _ _ => 0xFFFF#16
  | .ldr _ _ _ | .str _ _ _ | .jsr _ => 0xFFFF#16

/-- The instructions that use the value of `pc` (R24): all for a pc-relative address or for the link. -/
def Instr.usesPc : Instr → Bool
  | .br _ _ | .ld _ _ | .st _ _ | .ldi _ _ | .sti _ _ | .lea _ _ | .jsr _ | .jsrr _ => true
  | .addReg _ _ _ | .addImm _ _ _ | .andReg _ _ _ | .andImm _ _ _ | .not _ _ => false
  | .ldr _ _ _ | .str _ _ _ | .jmp _ | .ret | .rti | .res => false
  | .trapGetc | .trapOut | .trapPuts | .trapIn | .trapPutsp | .trapHalt | .trap _ => false

/-- The instructions that can write to the console (R91, R183). -/
def Instr.printsBytes : Instr → Bool
  | .trapOut | .trapPuts | .trapIn | .trapPutsp | .trapHalt => true
  | .br _ _ | .ld _ _ | .st _ _ | .ldi _ _ | .sti _ _ | .lea _ _ | .jsr _ | .jsrr _ => false
  | .addReg _ _ _ | .addImm _ _ _ | .andReg _ _ _ | .andImm _ _ _ | .not _ _ => false
  | .ldr _ _ _ | .str _ _ _ | .jmp _ | .ret | .rti | .res | .trapGetc | .trap _ => false

end Sys2Proof
end

