-- ==== Sys2Proof/Certificates/Slice0/Obligations.lean ====
section
/-! DEFINITION. The statements about the machine, from the spec's numbered rules. Each docstring names the rule, and
the log entry or the spec's decision where a clause rests on one. -/

open Sys2Proof Sys2Proof.Machine

/-! ## Arithmetic and encoding -/

/-- R10: `sext_N(v)` by the sign bit of the field, for every width; `zext_16` of a byte keeps its number. -/
def Obligations.SignExtensionByTopBit : Prop :=
  (∀ (n : Nat) (v : BitVec n), 1 ≤ n → n ≤ 16 →
    (sext v).toNat = if v.getLsbD (n - 1) then v.toNat + 65536 - 2 ^ n else v.toNat) ∧
  ∀ b : Byte, (zext b).toNat = b.toNat

/-- A sanity check of the decoder on words written out from R66's patterns (the one of ADD immediate is the source's
own, 95_test_vectors.md S5). -/
def Obligations.SampleWordsDecode : Prop :=
  decode 0b0001000001111111#16 = .addImm .r0 .r1 0b11111#5 ∧
    decode 0b0000001111111101#16 = .br 0b001#3 0b111111101#9 ∧
    decode 0b0110001010111111#16 = .ldr .r1 .r2 0b111111#6 ∧
    decode 0b0100100000000010#16 = .jsr 0b00000000010#11 ∧
    decode 0b1100000111000000#16 = .jmp .r7 ∧ decode 0b1111000000100010#16 = .trapPuts ∧
    decode 0b1000000000000000#16 = .rti

/-- R60, R66: decoding the encoding of any well-formed instruction gives it back, with every operand; the alias RET is
the word of JMP R7 (R71, R72). -/
def Obligations.EncodeThenDecode : Prop :=
  (∀ i : Instr, i.wellFormed = true → decode (encode i) = i) ∧ decode (encode .ret) = .jmp .r7

/-- R60, R61, R68 (D21): every word decodes to a well-formed instruction, whose encoding has the word's bits at every
place the row reads. -/
def Obligations.DecodeThenEncode : Prop :=
  ∀ w : Word, (decode w).wellFormed = true ∧ encode (decode w) &&& (decode w).readBits = w &&& (decode w).readBits

/-- R66 with the opcode numbers of D1: each row's match and mask say exactly which words are that instruction; TRAP
is split by R67 with the vectors of D4, and no word is the alias RET (R72). -/
def Obligations.OpcodeMapRows : Prop :=
  ∀ w : Word,
    (w &&& 0xF000#16 = 0x0000#16 ↔ ∃ nzp off, decode w = .br nzp off) ∧
    (w &&& 0xF020#16 = 0x1000#16 ↔ ∃ dr sr1 sr2, decode w = .addReg dr sr1 sr2) ∧
    (w &&& 0xF020#16 = 0x1020#16 ↔ ∃ dr sr1 imm, decode w = .addImm dr sr1 imm) ∧
    (w &&& 0xF000#16 = 0x2000#16 ↔ ∃ dr off, decode w = .ld dr off) ∧
    (w &&& 0xF000#16 = 0x3000#16 ↔ ∃ sr off, decode w = .st sr off) ∧
    (w &&& 0xF800#16 = 0x4800#16 ↔ ∃ off, decode w = .jsr off) ∧
    (w &&& 0xF800#16 = 0x4000#16 ↔ ∃ base, decode w = .jsrr base) ∧
    (w &&& 0xF020#16 = 0x5000#16 ↔ ∃ dr sr1 sr2, decode w = .andReg dr sr1 sr2) ∧
    (w &&& 0xF020#16 = 0x5020#16 ↔ ∃ dr sr1 imm, decode w = .andImm dr sr1 imm) ∧
    (w &&& 0xF000#16 = 0x6000#16 ↔ ∃ dr base off, decode w = .ldr dr base off) ∧
    (w &&& 0xF000#16 = 0x7000#16 ↔ ∃ sr base off, decode w = .str sr base off) ∧
    (w &&& 0xF000#16 = 0x8000#16 ↔ decode w = .rti) ∧
    (w &&& 0xF000#16 = 0x9000#16 ↔ ∃ dr sr, decode w = .not dr sr) ∧
    (w &&& 0xF000#16 = 0xA000#16 ↔ ∃ dr off, decode w = .ldi dr off) ∧
    (w &&& 0xF000#16 = 0xB000#16 ↔ ∃ sr off, decode w = .sti sr off) ∧
    (w &&& 0xF000#16 = 0xC000#16 ↔ ∃ base, decode w = .jmp base) ∧
    (w &&& 0xF1C0#16 = 0xC1C0#16 ↔ decode w = .jmp .r7) ∧
    (w &&& 0xF000#16 = 0xD000#16 ↔ decode w = .res) ∧
    (w &&& 0xF000#16 = 0xE000#16 ↔ ∃ dr off, decode w = .lea dr off) ∧
    (w &&& 0xF0FF#16 = 0xF020#16 ↔ decode w = .trapGetc) ∧
    (w &&& 0xF0FF#16 = 0xF021#16 ↔ decode w = .trapOut) ∧
    (w &&& 0xF0FF#16 = 0xF022#16 ↔ decode w = .trapPuts) ∧
    (w &&& 0xF0FF#16 = 0xF023#16 ↔ decode w = .trapIn) ∧
    (w &&& 0xF0FF#16 = 0xF024#16 ↔ decode w = .trapPutsp) ∧
    (w &&& 0xF0FF#16 = 0xF025#16 ↔ decode w = .trapHalt) ∧ decode w ≠ .ret

/-- R61 (D21): the bits a row does not read change nothing. -/
def Obligations.IgnoredBitsChangeNothing : Prop :=
  ∀ w v : Word, w &&& (decode w).readBits = v &&& (decode w).readBits → decode v = decode w

/-! ## Operate instructions, from the word -/

/-- R100. -/
def Obligations.AddRegisterForm : Prop :=
  ∀ (w : Word) (s : State), w &&& 0xF020#16 = 0x1000#16 →
    ∃ t, exec (decode w) s = .next t ∧
      WroteDest (regAt 9 w) (((s.reg (regAt 6 w)).toNat + (s.reg (regAt 0 w)).toNat) % 65536) s t

/-- R101. -/
def Obligations.AddImmediateForm : Prop :=
  ∀ (w : Word) (s : State), w &&& 0xF020#16 = 0x1020#16 →
    ∃ t, exec (decode w) s = .next t ∧
      WroteDest (regAt 9 w) (((s.reg (regAt 6 w)).toNat + sextNat 5 (fieldAt 0 5 w)) % 65536) s t

/-- R102: each result bit is the AND of the same bit of the operands. -/
def Obligations.AndRegisterForm : Prop :=
  ∀ (w : Word) (s : State), w &&& 0xF020#16 = 0x5000#16 →
    ∃ t, exec (decode w) s = .next t ∧
      WroteDest (regAt 9 w) ((s.reg (regAt 6 w)).toNat &&& (s.reg (regAt 0 w)).toNat) s t

/-- R103. -/
def Obligations.AndImmediateForm : Prop :=
  ∀ (w : Word) (s : State), w &&& 0xF020#16 = 0x5020#16 →
    ∃ t, exec (decode w) s = .next t ∧
      WroteDest (regAt 9 w) ((s.reg (regAt 6 w)).toNat &&& sextNat 5 (fieldAt 0 5 w)) s t

/-- R104. -/
def Obligations.NotComplements : Prop :=
  ∀ (w : Word) (s : State), w &&& 0xF000#16 = 0x9000#16 →
    ∃ t, exec (decode w) s = .next t ∧ WroteDest (regAt 9 w) (65535 - (s.reg (regAt 6 w)).toNat) s t

/-! ## Data movement, from the word. A load is MemRead, then the write of the destination in the state the read left;
for an address that is not KBSR_ADDR the read is plain. -/

/-- R110. -/
def Obligations.LoadPcRelative : Prop :=
  ∀ (w : Word) (s : State), w &&& 0xF000#16 = 0x2000#16 →
    let ea := relTo s.pc 9 w
    ∃ t, exec (decode w) s = .next t ∧
      WroteDest (regAt 9 w) (memRead ea s).1.toNat (memRead ea s).2 t ∧
      (ea ≠ config.kbsrAddr → WroteDest (regAt 9 w) (s.cell ea).toNat s t)

/-- R111. -/
def Obligations.StorePcRelative : Prop :=
  ∀ (w : Word) (s : State), s.mem.wf = true → w &&& 0xF000#16 = 0x3000#16 →
    ∃ t, exec (decode w) s = .next t ∧ StoredCell (relTo s.pc 9 w) (s.reg (regAt 9 w)) s t

/-- R112: the base is read before the destination is written. -/
def Obligations.LoadBasePlusOffset : Prop :=
  ∀ (w : Word) (s : State), w &&& 0xF000#16 = 0x6000#16 →
    let ea := relTo (s.reg (regAt 6 w)) 6 w
    ∃ t, exec (decode w) s = .next t ∧
      WroteDest (regAt 9 w) (memRead ea s).1.toNat (memRead ea s).2 t ∧
      (ea ≠ config.kbsrAddr → WroteDest (regAt 9 w) (s.cell ea).toNat s t)

/-- R113. -/
def Obligations.StoreBasePlusOffset : Prop :=
  ∀ (w : Word) (s : State), s.mem.wf = true → w &&& 0xF000#16 = 0x7000#16 →
    ∃ t, exec (decode w) s = .next t ∧
      StoredCell (relTo (s.reg (regAt 6 w)) 6 w) (s.reg (regAt 9 w)) s t

/-- R114: the pointer first, then the data, each through MemRead. -/
def Obligations.LoadIndirect : Prop :=
  ∀ (w : Word) (s : State), w &&& 0xF000#16 = 0xA000#16 →
    let ea := relTo s.pc 9 w
    let p := memRead ea s
    ∃ t, exec (decode w) s = .next t ∧
      WroteDest (regAt 9 w) (memRead p.1 p.2).1.toNat (memRead p.1 p.2).2 t ∧
      (ea ≠ config.kbsrAddr → s.cell ea ≠ config.kbsrAddr →
        WroteDest (regAt 9 w) (s.cell (s.cell ea)).toNat s t)

/-- R115: the pointer first, then the store. -/
def Obligations.StoreIndirect : Prop :=
  ∀ (w : Word) (s : State), s.mem.wf = true → w &&& 0xF000#16 = 0xB000#16 →
    let ea := relTo s.pc 9 w
    let p := memRead ea s
    ∃ t, exec (decode w) s = .next t ∧ StoredCell p.1 (s.reg (regAt 9 w)) p.2 t ∧
      (ea ≠ config.kbsrAddr → StoredCell (s.cell ea) (s.reg (regAt 9 w)) s t)

/-- R116: no cell is read, and the flags are set from the address. -/
def Obligations.LoadEffectiveAddress : Prop :=
  ∀ (w : Word) (s : State), w &&& 0xF000#16 = 0xE000#16 →
    ∃ t, exec (decode w) s = .next t ∧
      WroteDest (regAt 9 w) ((s.pc.toNat + sextNat 9 (fieldAt 0 9 w)) % 65536) s t

/-! ## Control transfer, from the word -/

/-- R130, with the reading of D3 and the flag bits of D2: n, z, p are `ir[11]`, `ir[10]`, `ir[9]`. In the four values
`cond` can take (R26) the branch is taken iff the set flag's bit is set. -/
def Obligations.BranchOnFlags : Prop :=
  ∀ (w : Word) (s : State), w &&& 0xF000#16 = 0x0000#16 →
    ∃ t, exec (decode w) s = .next t ∧
      (s.cond = config.flNeg → Jumped [] (if w.getLsbD 11 then relTo s.pc 9 w else s.pc) s t) ∧
      (s.cond = config.flZro → Jumped [] (if w.getLsbD 10 then relTo s.pc 9 w else s.pc) s t) ∧
      (s.cond = config.flPos → Jumped [] (if w.getLsbD 9 then relTo s.pc 9 w else s.pc) s t) ∧
      (s.cond = 0b000#3 → Jumped [] s.pc s t) ∧
      (fieldAt 9 3 w = 0 → Jumped [] s.pc s t)

/-- R131: JMP; RET is JMP R7. -/
def Obligations.JumpThroughRegister : Prop :=
  (∀ (w : Word) (s : State), w &&& 0xF000#16 = 0xC000#16 →
    ∃ t, exec (decode w) s = .next t ∧ Jumped [] (s.reg (regAt 6 w)) s t) ∧
  ∀ s : State, exec .ret s = exec (.jmp .r7) s ∧ ∃ t, exec .ret s = .next t ∧ Jumped [] (s.reg .r7) s t

/-- R132: the link is the incremented pc. -/
def Obligations.CallPcRelative : Prop :=
  ∀ (w : Word) (s : State), w &&& 0xF800#16 = 0x4800#16 →
    ∃ t, exec (decode w) s = .next t ∧ t.reg .r7 = s.pc ∧ Jumped [.r7] (relTo s.pc 11 w) s t

/-- R133: the link is written first, so JSRR R7 falls through. -/
def Obligations.CallThroughRegister : Prop :=
  ∀ (w : Word) (s : State), w &&& 0xF800#16 = 0x4000#16 →
    ∃ t, exec (decode w) s = .next t ∧ t.reg .r7 = s.pc ∧
      Jumped [.r7] (if regAt 6 w = .r7 then s.pc else s.reg (regAt 6 w)) s t

/-! ## Reserved opcodes, from the word -/

/-- R160, R161: RTI and RES take the fatal fault, each with its own cause; nothing but the run state and its cause
changes (the pc at its incremented value is D22's). That the next step of the halted core answers the same state is the
model's reading of D22 (assumption 11). -/
def Obligations.ReservedOpcodesTakeFault : Prop :=
  ∀ (w : Word) (s : State),
    (w &&& 0xF000#16 = 0x8000#16 →
      ∃ t, exec (decode w) s = .next t ∧ Ended .reservedRti s t ∧ SameEnv s t ∧ t.held = s.held ∧ step t = .next t) ∧
    (w &&& 0xF000#16 = 0xD000#16 →
      ∃ t, exec (decode w) s = .next t ∧ Ended .reservedRes s t ∧ SameEnv s t ∧ t.held = s.held ∧ step t = .next t)

/-! ## TRAP, from the word. The vector numbers are D4's. That a routine touches no register but its result, no flag
and not R7 is D14. -/

/-- GETC with a byte there and no shutdown request (44_trap.md, GETC). -/
def Obligations.GetcTakesByte : Prop :=
  ∀ (w : Word) (s : State) (c : Byte) (rest : List Byte), w &&& 0xF0FF#16 = 0xF020#16 →
    s.shutdownReq = false → s.held = .none → s.conIn = c :: rest →
    ∃ t, exec (decode w) s = .next t ∧ (t.reg .r0).toNat = c.toNat ∧ SameRegs [.r0] s t ∧ t.conIn = rest ∧
      t.conOut = s.conOut ∧ SameRest s t ∧ SameRun s t

/-- IN with a byte there and no shutdown request: prompt, echo, newline (44_trap.md, IN; the texts are D16's
parameters). -/
def Obligations.InTakesByte : Prop :=
  ∀ (w : Word) (s : State) (c : Byte) (rest : List Byte), w &&& 0xF0FF#16 = 0xF023#16 →
    s.shutdownReq = false → s.held = .none → s.conIn = c :: rest →
    ∃ t, exec (decode w) s = .next t ∧ (t.reg .r0).toNat = c.toNat ∧ SameRegs [.r0] s t ∧ t.conIn = rest ∧
      t.conOut = s.conOut ++ config.inPrompt ++ [c, config.newline] ∧ SameRest s t ∧ SameRun s t

/-- OUT (44_trap.md, OUT). -/
def Obligations.OutWritesLowByte : Prop :=
  ∀ (w : Word) (s : State), w &&& 0xF0FF#16 = 0xF021#16 →
    ∃ t, exec (decode w) s = .next t ∧ t.conOut = s.conOut ++ [BitVec.ofNat 8 ((s.reg .r0).toNat % 256)] ∧
      t.conIn = s.conIn ∧ SameRegs [] s t ∧ SameRest s t ∧ SameRun s t

/-- PUTS of a string of `n` nonzero cells that ends in a zero cell and does not meet the keyboard register
(44_trap.md, PUTS; D15). -/
def Obligations.PutsWritesString : Prop :=
  ∀ (w : Word) (s : State) (n : Nat), w &&& 0xF0FF#16 = 0xF022#16 →
    (∀ k, k ≤ n → s.reg .r0 + BitVec.ofNat 16 k ≠ config.kbsrAddr) →
    (∀ k, k < n → s.cell (s.reg .r0 + BitVec.ofNat 16 k) ≠ 0x0000#16) →
    s.cell (s.reg .r0 + BitVec.ofNat 16 n) = 0x0000#16 →
    ∃ t, exec (decode w) s = .next t ∧
      t.conOut = s.conOut ++ (List.range n).map
        (fun k => BitVec.ofNat 8 ((s.cell (s.reg .r0 + BitVec.ofNat 16 k)).toNat % 256)) ∧
      t.conIn = s.conIn ∧ SameRegs [] s t ∧ SameRest s t ∧ SameRun s t

/-- PUTSP of such a string: the low byte always, the high byte if it is not zero (44_trap.md, PUTSP; D15). -/
def Obligations.PutspWritesPackedString : Prop :=
  ∀ (w : Word) (s : State) (n : Nat), w &&& 0xF0FF#16 = 0xF024#16 →
    (∀ k, k ≤ n → s.reg .r0 + BitVec.ofNat 16 k ≠ config.kbsrAddr) →
    (∀ k, k < n → s.cell (s.reg .r0 + BitVec.ofNat 16 k) ≠ 0x0000#16) →
    s.cell (s.reg .r0 + BitVec.ofNat 16 n) = 0x0000#16 →
    ∃ t, exec (decode w) s = .next t ∧
      t.conOut = s.conOut ++ (List.range n).flatMap (fun k =>
        let v := (s.cell (s.reg .r0 + BitVec.ofNat 16 k)).toNat
        BitVec.ofNat 8 (v % 256) :: if v / 256 = 0 then [] else [BitVec.ofNat 8 (v / 256)]) ∧
      t.conIn = s.conIn ∧ SameRegs [] s t ∧ SameRest s t ∧ SameRun s t

/-- PUTS and PUTSP cell by cell, the keyboard register included: a cell that reads zero ends the routine; otherwise its
bytes are written and the routine, where it ends within the lap, does what it does from the next address (44_trap.md,
PUTS and PUTSP; D15; the laps are assumption 12). -/
def Obligations.StringWalkCellByCell : Prop :=
  ∀ s : State, s.held = .none →
    let a := s.reg .r0
    let r := memRead a s
    (r.1 = 0x0000#16 → exec .trapPuts s = .next r.2 ∧ exec .trapPutsp s = .next r.2) ∧
    (r.1 ≠ 0x0000#16 → ∀ t, t.held = .none →
      (exec .trapPuts s = .next t →
        exec .trapPuts ((writeBytes [r.1.setWidth 8] r.2).setReg .r0 (a + 1)) = .next (t.setReg .r0 (a + 1))) ∧
      (exec .trapPutsp s = .next t →
        exec .trapPutsp ((writeBytes (if r.1.toNat < 256 then [r.1.setWidth 8]
          else [r.1.setWidth 8, (r.1 >>> 8).setWidth 8]) r.2).setReg .r0 (a + 1)) = .next (t.setReg .r0 (a + 1))))

/-- A lap of PUTS or PUTSP: the routine ends at a zero cell, or it has met none in the whole of memory, has taken one
nonzero byte at the keyboard register and is not completed (44_trap.md, PUTS, PUTSP; 40_execution_cycle.md section 1;
the laps are assumption 12). It always ends if no input is there. No register, flag, pc or run state and no cell but
the keyboard's changes, the output only grows, the shutdown request plays no part. -/
def Obligations.StringEndsAtZeroCellOnly : Prop :=
  ∀ (i : Instr) (routine : Held) (s : State),
    (i = .trapPuts ∧ routine = .puts) ∨ (i = .trapPutsp ∧ routine = .putsp) → s.mem.wf = true → s.held = .none →
    ∃ t, exec i s = .next t ∧ SameRegs [] s t ∧ t.pc = s.pc ∧ t.cond = s.cond ∧ t.runState = s.runState ∧
      t.haltCause = s.haltCause ∧ t.shutdownReq = s.shutdownReq ∧ SameCells [config.kbsrAddr, config.kbdrAddr] s t ∧
      (∃ out, t.conOut = s.conOut ++ out) ∧ (∃ taken, s.conIn = taken ++ t.conIn) ∧
      ((t.held = .none ∧ ∃ a, t.cell a = 0x0000#16) ∨
        (t.held = routine ∧ (∀ a, t.cell a ≠ 0x0000#16) ∧ ∃ c, c ≠ 0x00#8 ∧ s.conIn = c :: t.conIn)) ∧
      (s.conIn = [] → t.held = .none)

/-- The step that never completes (40_execution_cycle.md section 1; 44_trap.md, PUTS, PUTSP; assumption 12): where
every cell but the keyboard's is nonzero and the environment goes on supplying nonzero bytes that its polls answer, the
core stays inside the routine, lap after lap, whatever the shutdown request; each lap does what the routine does. -/
def Obligations.StringWithoutZeroCellNeverEnds : Prop :=
  let full := fun s : State => s.mem.wf = true ∧ (∀ a, a ≠ config.kbsrAddr → s.cell a ≠ 0x0000#16) ∧ s.conIn = [] ∧
    s.pollDraws = []
  (∀ (s : State) (c : Byte), full s → c ≠ 0x00#8 → s.held = .none →
    (∃ t, exec .trapPuts ((s.receive c).settlePolls [true]) = .next t ∧ t.held = .puts ∧ full t) ∧
    ∃ t, exec .trapPutsp ((s.receive c).settlePolls [true]) = .next t ∧ t.held = .putsp ∧ full t) ∧
  (∀ (s : State) (c : Byte), full s → c ≠ 0x00#8 → s.runState = .running → s.held = .puts ∨ s.held = .putsp →
    ∃ t, step ((s.receive c).settlePolls [true]) = .next t ∧ t.runState = .running ∧ t.held = s.held ∧ full t) ∧
  ∀ s : State, s.runState = .running →
    (s.held = .puts → step s = exec .trapPuts { s with held := .none }) ∧
      (s.held = .putsp → step s = exec .trapPutsp { s with held := .none })

/-- TRAP HALT (44_trap.md, HALT; the notice is D16's parameter). -/
def Obligations.HaltEndsRun : Prop :=
  ∀ (w : Word) (s : State), w &&& 0xF0FF#16 = 0xF025#16 →
    ∃ t, exec (decode w) s = .next t ∧ Ended .haltTrap s t ∧ t.conOut = s.conOut ++ config.haltNotice ∧
      t.conIn = s.conIn ∧ SameRest s t ∧ t.held = s.held

/-- A TRAP whose vector is none of the six does nothing (44_trap.md, Unknown vector; D5). -/
def Obligations.UnknownTrapDoesNothing : Prop :=
  ∀ (w : Word) (s : State), w &&& 0xF000#16 = 0xF000#16 → (fieldAt 0 8 w < 0x20 ∨ 0x25 < fieldAt 0 8 w) →
    exec (decode w) s = .next s

/-! ## Memory and the keyboard register -/

/-- R41: MemRead has no side effect unless the address is KBSR_ADDR, where it latches first; it answers the word stored
after that, for every choice of the addresses. -/
def Obligations.MemReadLatchesFirst : Prop :=
  ∀ (c : Config) (a : Word) (s : State),
    (a ≠ c.kbsrAddr → memReadIn c a s = (s.cell a, s)) ∧
      (a = c.kbsrAddr → memReadIn c a s = ((kbdLatchIn c s).cell a, kbdLatchIn c s))

/-- R42: MemWrite changes the one cell, at every address. -/
def Obligations.MemWriteStoresOneCell : Prop :=
  ∀ (a v : Word) (s : State), s.mem.wf = true → StoredCell a v s (memWrite a v s)

/-- A read of the keyboard register with the default parameters (20_memory.md section 2; D6, D7, D8, D9): the pending
character or zero, in the cell and in the answer; a byte is taken only when the environment answers; nothing else of
the core changes. -/
def Obligations.KeyboardReadShared : Prop :=
  ∀ s : State, s.mem.wf = true →
    let r := memRead config.kbsrAddr s
    r.2.cell config.kbsrAddr = r.1 ∧
    (∀ c rest ds, s.conIn = c :: rest → s.pollDraws = true :: ds → r.1.toNat = c.toNat ∧ r.2.conIn = rest) ∧
    (s.conIn = [] ∨ s.pollDraws.head? = some false → r.1 = 0x0000#16 ∧ r.2.conIn = s.conIn) ∧
    ((r.1 = 0x0000#16 ∧ r.2.conIn = s.conIn) ∨ ∃ c, s.conIn = c :: r.2.conIn ∧ r.1.toNat = c.toNat) ∧
    SameRegs [] s r.2 ∧ SameCells [config.kbsrAddr] s r.2 ∧ SameRun s r.2 ∧ r.2.pc = s.pc ∧ r.2.cond = s.cond ∧
      r.2.conOut = s.conOut ∧ r.2.shutdownReq = s.shutdownReq ∧ r.2.pollDraws = s.pollDraws.tail ∧
      r.2.pollCount = s.pollCount + 1

/-- A read of the keyboard status register when the data register has an address of its own (20_memory.md section 2;
D6, D7, D8): 0x8000 with the character in the data cell, or 0x0000 with the data cell as it was, in the cell and in the
answer; a byte is taken only when the environment answers; nothing else of the core changes; a read of the data
register is plain. -/
def Obligations.KeyboardReadDistinct : Prop :=
  ∀ (c : Config) (s : State), s.mem.wf = true → c.kbdrAddr ≠ c.kbsrAddr →
    let r := memReadIn c c.kbsrAddr s
    r.2.cell c.kbsrAddr = r.1 ∧
    (∀ ch rest ds, c.kbdPoll = .query → s.conIn = ch :: rest → s.pollDraws = true :: ds →
      r.1 = 0x8000#16 ∧ (r.2.cell c.kbdrAddr).toNat = ch.toNat ∧ r.2.conIn = rest) ∧
    (c.kbdPoll = .never ∨ s.conIn = [] ∨ s.pollDraws.head? = some false →
      r.1 = 0x0000#16 ∧ r.2.cell c.kbdrAddr = s.cell c.kbdrAddr ∧ r.2.conIn = s.conIn) ∧
    ((r.1 = 0x0000#16 ∧ r.2.conIn = s.conIn ∧ SameCells [c.kbsrAddr] s r.2) ∨
      ∃ ch, s.conIn = ch :: r.2.conIn ∧ r.1 = 0x8000#16 ∧ (r.2.cell c.kbdrAddr).toNat = ch.toNat ∧
        SameCells [c.kbsrAddr, c.kbdrAddr] s r.2) ∧
    SameRegs [] s r.2 ∧ SameRun s r.2 ∧ r.2.pc = s.pc ∧ r.2.cond = s.cond ∧ r.2.conOut = s.conOut ∧
    r.2.shutdownReq = s.shutdownReq ∧ r.2.pollDraws = s.pollDraws.tail ∧ r.2.pollCount = s.pollCount + 1 ∧
    memReadIn c c.kbdrAddr r.2 = (r.2.cell c.kbdrAddr, r.2)

/-- R46: a word written is read back at every address but KBSR_ADDR, whatever is read anywhere and written elsewhere in
between; at KBDR_ADDR only if no read of KBSR_ADDR comes between. -/
def Obligations.WrittenWordIsReadBack : Prop :=
  ∀ (c : Config) (a x : Word) (s : State) (between : List Access), s.mem.wf = true → a ≠ c.kbsrAddr →
    (∀ b v, Access.write b v ∈ between → b ≠ a) → (a ≠ c.kbdrAddr ∨ Access.read c.kbsrAddr ∉ between) →
    (memReadIn c a (between.foldl (Access.run c) (memWrite a x s))).1 = x

/-- The canonical form of memory (assumption 1): memories that hold the same words are equal data. -/
def Obligations.EqualMemoriesAreEqualData : Prop :=
  ∀ m m' : Memory, m.wf = true → m'.wf = true → (∀ a, a < 65536 → m.read a = m'.read a) → m = m'

/-! ## The step -/

/-- R81, R82, R84: a core that is running, between instructions and without a shutdown request fetches at the pc,
increments it and executes what it decoded. -/
def Obligations.StepRunsDecodedInstruction : Prop :=
  ∀ s : State, s.runState = .running → s.held = .none → s.shutdownReq = false →
    let r := memRead s.pc s
    step s = exec (decode r.1) (r.2.setPc (s.pc + 1)) ∧
      (s.pc ≠ config.kbsrAddr → step s = exec (decode (s.cell s.pc)) (s.setPc (s.pc + 1)))

/-- When no instruction runs (40_execution_cycle.md sections 1 and 3, D18; 10_state.md section 5, D22; assumption 11):
the shutdown request is seen before the fetch, and the run ends with the pc where it was; a halted core stays as it is. -/
def Obligations.ShutdownAndHaltedRunNothing : Prop :=
  ∀ s : State,
    (s.runState = .running → s.held = .none → s.shutdownReq = true →
      ∃ t, step s = .next t ∧ Ended .shutdown s t ∧ SameEnv s t ∧ t.held = .none) ∧
    (s.runState = .halted → step s = .next s)

/-- R185, R85: an instruction leaves the core waiting for input only if it is GETC or IN and no byte is there; GETC has
then done nothing, and IN has written its prompt. The only others that do not complete at once are PUTS and PUTSP
(assumption 12). -/
def Obligations.WaitIsEnteredByGetcAndIn : Prop :=
  (∀ (i : Instr) (s t : State), s.held = .none → exec i s = .next t → t.held ≠ .none →
    (((i = .trapGetc ∧ t.held = .getc) ∨ (i = .trapIn ∧ t.held = .inEcho)) ∧ s.conIn = [] ∧ s.shutdownReq = false) ∨
      (i = .trapPuts ∧ t.held = .puts) ∨ (i = .trapPutsp ∧ t.held = .putsp)) ∧
  ∀ s : State, s.conIn = [] → s.shutdownReq = false →
    exec .trapGetc s = .next { s with held := .getc } ∧
      exec .trapIn s = .next { s with held := .inEcho, conOut := s.conOut ++ config.inPrompt }

/-- R185, R89 (D18): a waiting core changes nothing while no byte and no request comes; a byte completes the routine;
the request, which wins, ends the run and takes no byte. -/
def Obligations.WaitIsLeftByByteOrShutdown : Prop :=
  ∀ s : State, s.runState = .running → s.held = .getc ∨ s.held = .inEcho →
    (s.shutdownReq = true → ∃ t, step s = .next t ∧ Ended .shutdown s t ∧ SameEnv s t ∧ t.held = .none) ∧
    (s.shutdownReq = false → s.conIn = [] → step s = .next s) ∧
    ∀ c rest, s.shutdownReq = false → s.conIn = c :: rest →
      ∃ t, step s = .next t ∧ (t.reg .r0).toNat = c.toNat ∧ SameRegs [.r0] s t ∧ t.conIn = rest ∧
        t.conOut = s.conOut ++ (if s.held = .inEcho then [c, config.newline] else []) ∧ SameRest s t ∧
        t.runState = .running ∧ t.haltCause = s.haltCause ∧ t.held = .none

/-- 10_state.md section 3 (the condition of BR is D3's reading): what the pc is after a step that executes an
instruction, for every instruction; and the value of the pc reaches nothing but the pc in the instructions that are not
listed there as reading it. -/
def Obligations.PcAfterEveryInstruction : Prop :=
  (∀ s t : State, s.ready → step s = .next t →
    match decode (memRead s.pc s).1 with
    | .br nzp off => t.pc = if nzp &&& s.cond = 0b000#3 then s.pc + 1 else s.pc + 1 + sext off
    | .jsr off => t.pc = s.pc + 1 + sext off
    | .jsrr base => t.pc = if base = .r7 then s.pc + 1 else s.reg base
    | .jmp base => t.pc = s.reg base
    | .ret => t.pc = s.reg .r7
    | _ => t.pc.toNat = (s.pc.toNat + 1) % 65536) ∧
  ∀ (i : Instr) (s t : State) (v : Word), i.usesPc = false → exec i s = .next t →
    ∃ v', exec i (s.setPc v) = .next (t.setPc v')

/-- Fetch coherence (20_memory.md section 5, derived there): a store to the next instruction's address, by ST, STR or
STI, is what the very next step executes. -/
def Obligations.StoreIsSeenByNextFetch : Prop :=
  ∀ (s : State) (sr : Reg), s.ready → s.mem.wf = true →
    (decode (fetch s).1).storesFrom = some sr → (decode (fetch s).1).storesTo (fetch s).2 = some (s.pc + 1) →
    s.pc + 1 ≠ config.kbsrAddr →
    ∃ t, step s = .next t ∧ t.pc = s.pc + 1 ∧ t.cell (s.pc + 1) = s.reg sr ∧
      step t = exec (decode (s.reg sr)) (t.setPc (s.pc + 2))

/-! ## Whole-machine rules -/

/-- 40_execution_cycle.md section 1 ("There is no fourth outcome") and 60_exceptions.md section 1: every step gives a
next state: no address, no word and no data faults. A TRAP whose routine has not ended is a next state too, that of a
core inside it (assumptions 6, 12). -/
def Obligations.EveryStepGivesNextState : Prop := ∀ s : State, ∃ t, step s = .next t

/-- The invariant (R26, R29, R30, R185; assumption 1) is kept by every step, from every state that has it. -/
def Obligations.StepKeepsInvariant : Prop := ∀ s t : State, s.Inv → step s = .next t → t.Inv

/-- The reset state has the invariant. -/
def Obligations.ResetHasInvariant : Prop := State.reset.Inv

/-- Every state of a run has the invariant, whatever image is loaded and whatever the environment does between
steps. -/
def Obligations.ReachableStatesHaveInvariant : Prop := ∀ s : State, Reachable s → s.Inv

/-- R22, the whole table: the registers an instruction writes, those it reads (the value of any other reaches nothing
but that register), and whether it sets `cond` from what it wrote. -/
def Obligations.RegisterUseTable : Prop :=
  (∀ (i : Instr) (s t : State), exec i s = .next t → SameRegs i.writes s t) ∧
  (∀ (i : Instr) (s t : State) (r : Reg) (v : Word), r ∉ i.reads → exec i s = .next t →
    ∃ v', exec i (s.setReg r v) = .next (t.setReg r v')) ∧
  ∀ (i : Instr) (s t : State), exec i s = .next t →
    (i.setsFlags = false → t.cond = s.cond) ∧ (i.setsFlags = true → ∀ dr ∈ i.writes, FlagsFor (t.reg dr) t)

/-- 10_state.md section 4: only BR reads the flags, and no instruction copies them anywhere: the value of `cond` reaches
nothing but `cond`. -/
def Obligations.OnlyBranchReadsFlags : Prop :=
  ∀ (i : Instr) (s t : State) (f : BitVec 3), (∀ nzp off, i ≠ .br nzp off) → exec i s = .next t →
    ∃ f', exec i (s.setCond f) = .next (t.setCond f')

/-- R87: after one of the seven, exactly one flag is set, consistent with the register; then `cond` is one-hot after
every step, and a BR with field 0b111 is taken; before that (`cond` = 0b000) no BR is taken; the other instructions do
not refresh the flags. -/
def Obligations.FlagsStayOneHot : Prop :=
  (∀ (i : Instr) (s t : State), exec i s = .next t → i.setsFlags = true →
    t.flagsOneHot ∧ ∀ dr ∈ i.writes, FlagsFor (t.reg dr) t) ∧
  (∀ s t : State, s.flagsOneHot → step s = .next t → t.flagsOneHot) ∧
  (∀ (s : State) (off : BitVec 9), s.flagsOneHot → exec (.br 0b111#3 off) s = .next (s.setPc (s.pc + sext off))) ∧
  (∀ (s : State) (nzp : BitVec 3) (off : BitVec 9), s.cond = 0b000#3 → exec (.br nzp off) s = .next s) ∧
  ∀ (i : Instr) (s t : State), exec i s = .next t → i.setsFlags = false → t.cond = s.cond

/-- 10_state.md section 6 and 20_memory.md section 6: memory changes only where ST, STR and STI store, and at the
keyboard's latch cells. -/
def Obligations.OnlyStoresChangeMemory : Prop :=
  ∀ (i : Instr) (s t : State), exec i s = .next t →
    ∀ a, i.storesTo s ≠ some a → a ≠ config.kbsrAddr → a ≠ config.kbdrAddr → t.cell a = s.cell a

/-- R91: the output stream only grows, in a step and in an instruction, and only the five writing routines write. -/
def Obligations.OutputIsAppendOnly : Prop :=
  (∀ s t : State, step s = .next t → ∃ out, t.conOut = s.conOut ++ out) ∧
  ∀ (i : Instr) (s t : State), exec i s = .next t → i.printsBytes = false → t.conOut = s.conOut

/-- 40_execution_cycle.md section 3 (D9): input bytes are taken from the head of the stream, in order, and none is put
back. -/
def Obligations.InputIsTakenInOrder : Prop :=
  ∀ s t : State, step s = .next t → ∃ taken, s.conIn = taken ++ t.conIn

/-- 10_state.md section 5 and 60_exceptions.md section 1: a run ends by exactly four events, each with its own cause
(the codes are D17's). -/
def Obligations.FourEventsEndARun : Prop :=
  ∀ s t : State, s.runState = .running → step s = .next t → t.runState = .halted →
    (s.shutdownReq = true ∧ t.haltCause = .shutdown ∧ t.haltCause.code = 4) ∨
      (s.ready ∧
        let i := decode (memRead s.pc s).1
        (i = .trapHalt ∧ t.haltCause = .haltTrap ∧ t.haltCause.code = 1) ∨
          (i = .rti ∧ t.haltCause = .reservedRti ∧ t.haltCause.code = 2) ∨
          (i = .res ∧ t.haltCause = .reservedRes ∧ t.haltCause.code = 3))

/-! ## Reset and the image -/

/-- The collected reset values of 70_reset_and_hazards.md section 1 (`cond` D10, `pc` D11, memory D12). -/
def Obligations.ResetValues : Prop :=
  (∀ r, State.reset.reg r = 0x0000#16) ∧ State.reset.pc = 0x3000#16 ∧ State.reset.cond = 0b000#3 ∧
    (∀ a, State.reset.cell a = 0x0000#16) ∧ State.reset.runState = .running ∧ State.reset.haltCause = .none ∧
    State.reset.haltCause.code = 0 ∧ State.reset.conOut = []

/-- The layout of 70_reset_and_hazards.md section 2 (MEM_INIT is D12, the wrap D13): the words of an image, big-endian,
lie from its origin on, in order, the later word winning where the image wraps onto itself; every other cell holds
MEM_INIT, and nothing but memory differs from reset. -/
def Obligations.ImageIsLoadedFromOrigin : Prop :=
  ∀ (bytes : List Byte) (n : Nat), bytes.length = 2 * n + 2 →
    let byte := fun k => (bytes.getD k 0#8).toNat
    let at_ := fun k : Nat => BitVec.ofNat 16 (byte 0 * 256 + byte 1 + k)
    ∃ s, State.boot bytes = some s ∧
      (∀ k, k < n → (∀ j, k < j → j < n → at_ j ≠ at_ k) →
        (s.cell (at_ k)).toNat = byte (2 * k + 2) * 256 + byte (2 * k + 3)) ∧
      (∀ a, (∀ k, k < n → a ≠ at_ k) → s.cell a = config.memInit) ∧
      { s with mem := [] } = State.reset

/-- The loader's edge cases (70_reset_and_hazards.md section 2; D13): a last odd byte is ignored, an image of the origin
alone loads nothing, a shorter one is a load fault and the core never runs. -/
def Obligations.ImageEdgeCases : Prop :=
  (∀ (bytes : List Byte) (b : Byte), bytes.length % 2 = 0 → bytes ≠ [] → State.boot (bytes ++ [b]) = State.boot bytes) ∧
  (∀ b0 b1 : Byte, State.boot [b0, b1] = some State.reset) ∧
  ∀ bytes : List Byte, bytes.length < 2 → State.boot bytes = none
end

