-- ==== Sys2Proof/Laws/State.lean ====
section
/-! SUPPORT. One lemma per field per update of the state, and what the register and cell accessors see of each. -/

namespace Sys2Proof.Machine.Laws

variable (s : State)

/-! setReg -/

@[simp] theorem setReg_regs (r : Reg) (v : Word) : (s.setReg r v).regs = s.regs.set r v := rfl
@[simp] theorem setReg_pc (r : Reg) (v : Word) : (s.setReg r v).pc = s.pc := rfl
@[simp] theorem setReg_cond (r : Reg) (v : Word) : (s.setReg r v).cond = s.cond := rfl
@[simp] theorem setReg_mem (r : Reg) (v : Word) : (s.setReg r v).mem = s.mem := rfl
@[simp] theorem setReg_runState (r : Reg) (v : Word) : (s.setReg r v).runState = s.runState := rfl
@[simp] theorem setReg_haltCause (r : Reg) (v : Word) : (s.setReg r v).haltCause = s.haltCause := rfl
@[simp] theorem setReg_held (r : Reg) (v : Word) : (s.setReg r v).held = s.held := rfl
@[simp] theorem setReg_conIn (r : Reg) (v : Word) : (s.setReg r v).conIn = s.conIn := rfl
@[simp] theorem setReg_conOut (r : Reg) (v : Word) : (s.setReg r v).conOut = s.conOut := rfl
@[simp] theorem setReg_shutdownReq (r : Reg) (v : Word) : (s.setReg r v).shutdownReq = s.shutdownReq := rfl
@[simp] theorem setReg_pollDraws (r : Reg) (v : Word) : (s.setReg r v).pollDraws = s.pollDraws := rfl
@[simp] theorem setReg_pollCount (r : Reg) (v : Word) : (s.setReg r v).pollCount = s.pollCount := rfl
@[simp] theorem setReg_cell (r : Reg) (v : Word) (a : Word) : (s.setReg r v).cell a = s.cell a := rfl

/-! setPc -/

@[simp] theorem setPc_regs (v : Word) : (s.setPc v).regs = s.regs := rfl
@[simp] theorem setPc_pc (v : Word) : (s.setPc v).pc = v := rfl
@[simp] theorem setPc_cond (v : Word) : (s.setPc v).cond = s.cond := rfl
@[simp] theorem setPc_mem (v : Word) : (s.setPc v).mem = s.mem := rfl
@[simp] theorem setPc_runState (v : Word) : (s.setPc v).runState = s.runState := rfl
@[simp] theorem setPc_haltCause (v : Word) : (s.setPc v).haltCause = s.haltCause := rfl
@[simp] theorem setPc_held (v : Word) : (s.setPc v).held = s.held := rfl
@[simp] theorem setPc_conIn (v : Word) : (s.setPc v).conIn = s.conIn := rfl
@[simp] theorem setPc_conOut (v : Word) : (s.setPc v).conOut = s.conOut := rfl
@[simp] theorem setPc_shutdownReq (v : Word) : (s.setPc v).shutdownReq = s.shutdownReq := rfl
@[simp] theorem setPc_pollDraws (v : Word) : (s.setPc v).pollDraws = s.pollDraws := rfl
@[simp] theorem setPc_pollCount (v : Word) : (s.setPc v).pollCount = s.pollCount := rfl
@[simp] theorem setPc_reg (v : Word) (r : Reg) : (s.setPc v).reg r = s.reg r := rfl
@[simp] theorem setPc_cell (v a : Word) : (s.setPc v).cell a = s.cell a := rfl

/-! setCond -/

@[simp] theorem setCond_regs (v : BitVec 3) : (s.setCond v).regs = s.regs := rfl
@[simp] theorem setCond_pc (v : BitVec 3) : (s.setCond v).pc = s.pc := rfl
@[simp] theorem setCond_cond (v : BitVec 3) : (s.setCond v).cond = v := rfl
@[simp] theorem setCond_mem (v : BitVec 3) : (s.setCond v).mem = s.mem := rfl
@[simp] theorem setCond_runState (v : BitVec 3) : (s.setCond v).runState = s.runState := rfl
@[simp] theorem setCond_haltCause (v : BitVec 3) : (s.setCond v).haltCause = s.haltCause := rfl
@[simp] theorem setCond_held (v : BitVec 3) : (s.setCond v).held = s.held := rfl
@[simp] theorem setCond_conIn (v : BitVec 3) : (s.setCond v).conIn = s.conIn := rfl
@[simp] theorem setCond_conOut (v : BitVec 3) : (s.setCond v).conOut = s.conOut := rfl
@[simp] theorem setCond_shutdownReq (v : BitVec 3) : (s.setCond v).shutdownReq = s.shutdownReq := rfl
@[simp] theorem setCond_pollDraws (v : BitVec 3) : (s.setCond v).pollDraws = s.pollDraws := rfl
@[simp] theorem setCond_pollCount (v : BitVec 3) : (s.setCond v).pollCount = s.pollCount := rfl
@[simp] theorem setCond_reg (v : BitVec 3) (r : Reg) : (s.setCond v).reg r = s.reg r := rfl
@[simp] theorem setCond_cell (v : BitVec 3) (a : Word) : (s.setCond v).cell a = s.cell a := rfl

/-! setCell -/

@[simp] theorem setCell_regs (a v : Word) : (s.setCell a v).regs = s.regs := rfl
@[simp] theorem setCell_pc (a v : Word) : (s.setCell a v).pc = s.pc := rfl
@[simp] theorem setCell_cond (a v : Word) : (s.setCell a v).cond = s.cond := rfl
@[simp] theorem setCell_mem (a v : Word) : (s.setCell a v).mem = s.mem.write a.toNat v := rfl
@[simp] theorem setCell_runState (a v : Word) : (s.setCell a v).runState = s.runState := rfl
@[simp] theorem setCell_haltCause (a v : Word) : (s.setCell a v).haltCause = s.haltCause := rfl
@[simp] theorem setCell_held (a v : Word) : (s.setCell a v).held = s.held := rfl
@[simp] theorem setCell_conIn (a v : Word) : (s.setCell a v).conIn = s.conIn := rfl
@[simp] theorem setCell_conOut (a v : Word) : (s.setCell a v).conOut = s.conOut := rfl
@[simp] theorem setCell_shutdownReq (a v : Word) : (s.setCell a v).shutdownReq = s.shutdownReq := rfl
@[simp] theorem setCell_pollDraws (a v : Word) : (s.setCell a v).pollDraws = s.pollDraws := rfl
@[simp] theorem setCell_pollCount (a v : Word) : (s.setCell a v).pollCount = s.pollCount := rfl
@[simp] theorem setCell_reg (a v : Word) (r : Reg) : (s.setCell a v).reg r = s.reg r := rfl

/-! halt -/

@[simp] theorem halt_regs (c : HaltCause) : (halt c s).regs = s.regs := rfl
@[simp] theorem halt_pc (c : HaltCause) : (halt c s).pc = s.pc := rfl
@[simp] theorem halt_cond (c : HaltCause) : (halt c s).cond = s.cond := rfl
@[simp] theorem halt_mem (c : HaltCause) : (halt c s).mem = s.mem := rfl
@[simp] theorem halt_runState (c : HaltCause) : (halt c s).runState = .halted := rfl
@[simp] theorem halt_haltCause (c : HaltCause) : (halt c s).haltCause = c := rfl
@[simp] theorem halt_held (c : HaltCause) : (halt c s).held = s.held := rfl
@[simp] theorem halt_conIn (c : HaltCause) : (halt c s).conIn = s.conIn := rfl
@[simp] theorem halt_conOut (c : HaltCause) : (halt c s).conOut = s.conOut := rfl
@[simp] theorem halt_shutdownReq (c : HaltCause) : (halt c s).shutdownReq = s.shutdownReq := rfl
@[simp] theorem halt_pollDraws (c : HaltCause) : (halt c s).pollDraws = s.pollDraws := rfl
@[simp] theorem halt_pollCount (c : HaltCause) : (halt c s).pollCount = s.pollCount := rfl
@[simp] theorem halt_reg (c : HaltCause) (r : Reg) : (halt c s).reg r = s.reg r := rfl
@[simp] theorem halt_cell (c : HaltCause) (a : Word) : (halt c s).cell a = s.cell a := rfl

/-! writeBytes -/

@[simp] theorem writeBytes_regs (bs : List Byte) : (writeBytes bs s).regs = s.regs := rfl
@[simp] theorem writeBytes_pc (bs : List Byte) : (writeBytes bs s).pc = s.pc := rfl
@[simp] theorem writeBytes_cond (bs : List Byte) : (writeBytes bs s).cond = s.cond := rfl
@[simp] theorem writeBytes_mem (bs : List Byte) : (writeBytes bs s).mem = s.mem := rfl
@[simp] theorem writeBytes_runState (bs : List Byte) : (writeBytes bs s).runState = s.runState := rfl
@[simp] theorem writeBytes_haltCause (bs : List Byte) : (writeBytes bs s).haltCause = s.haltCause := rfl
@[simp] theorem writeBytes_held (bs : List Byte) : (writeBytes bs s).held = s.held := rfl
@[simp] theorem writeBytes_conIn (bs : List Byte) : (writeBytes bs s).conIn = s.conIn := rfl
@[simp] theorem writeBytes_conOut (bs : List Byte) : (writeBytes bs s).conOut = s.conOut ++ bs := rfl
@[simp] theorem writeBytes_shutdownReq (bs : List Byte) : (writeBytes bs s).shutdownReq = s.shutdownReq := rfl
@[simp] theorem writeBytes_pollDraws (bs : List Byte) : (writeBytes bs s).pollDraws = s.pollDraws := rfl
@[simp] theorem writeBytes_pollCount (bs : List Byte) : (writeBytes bs s).pollCount = s.pollCount := rfl
@[simp] theorem writeBytes_reg (bs : List Byte) (r : Reg) : (writeBytes bs s).reg r = s.reg r := rfl
@[simp] theorem writeBytes_cell (bs : List Byte) (a : Word) : (writeBytes bs s).cell a = s.cell a := rfl

/-! consoleWriteByte -/

@[simp] theorem consoleWriteByte_regs (b : Byte) : (consoleWriteByte b s).regs = s.regs := rfl
@[simp] theorem consoleWriteByte_pc (b : Byte) : (consoleWriteByte b s).pc = s.pc := rfl
@[simp] theorem consoleWriteByte_cond (b : Byte) : (consoleWriteByte b s).cond = s.cond := rfl
@[simp] theorem consoleWriteByte_mem (b : Byte) : (consoleWriteByte b s).mem = s.mem := rfl
@[simp] theorem consoleWriteByte_runState (b : Byte) : (consoleWriteByte b s).runState = s.runState := rfl
@[simp] theorem consoleWriteByte_haltCause (b : Byte) : (consoleWriteByte b s).haltCause = s.haltCause := rfl
@[simp] theorem consoleWriteByte_held (b : Byte) : (consoleWriteByte b s).held = s.held := rfl
@[simp] theorem consoleWriteByte_conIn (b : Byte) : (consoleWriteByte b s).conIn = s.conIn := rfl
@[simp] theorem consoleWriteByte_conOut (b : Byte) : (consoleWriteByte b s).conOut = s.conOut ++ [b] := rfl
@[simp] theorem consoleWriteByte_shutdownReq (b : Byte) : (consoleWriteByte b s).shutdownReq = s.shutdownReq := rfl
@[simp] theorem consoleWriteByte_pollDraws (b : Byte) : (consoleWriteByte b s).pollDraws = s.pollDraws := rfl
@[simp] theorem consoleWriteByte_pollCount (b : Byte) : (consoleWriteByte b s).pollCount = s.pollCount := rfl
@[simp] theorem consoleWriteByte_reg (b : Byte) (r : Reg) : (consoleWriteByte b s).reg r = s.reg r := rfl
@[simp] theorem consoleWriteByte_cell (b : Byte) (a : Word) : (consoleWriteByte b s).cell a = s.cell a := rfl

/-! usePoll -/

@[simp] theorem usePoll_regs : (s.usePoll).regs = s.regs := rfl
@[simp] theorem usePoll_pc : (s.usePoll).pc = s.pc := rfl
@[simp] theorem usePoll_cond : (s.usePoll).cond = s.cond := rfl
@[simp] theorem usePoll_mem : (s.usePoll).mem = s.mem := rfl
@[simp] theorem usePoll_runState : (s.usePoll).runState = s.runState := rfl
@[simp] theorem usePoll_haltCause : (s.usePoll).haltCause = s.haltCause := rfl
@[simp] theorem usePoll_held : (s.usePoll).held = s.held := rfl
@[simp] theorem usePoll_conIn : (s.usePoll).conIn = s.conIn := rfl
@[simp] theorem usePoll_conOut : (s.usePoll).conOut = s.conOut := rfl
@[simp] theorem usePoll_shutdownReq : (s.usePoll).shutdownReq = s.shutdownReq := rfl
@[simp] theorem usePoll_pollDraws : (s.usePoll).pollDraws = s.pollDraws.tail := rfl
@[simp] theorem usePoll_pollCount : (s.usePoll).pollCount = s.pollCount + 1 := rfl
@[simp] theorem usePoll_reg (r : Reg) : (s.usePoll).reg r = s.reg r := rfl
@[simp] theorem usePoll_cell (a : Word) : (s.usePoll).cell a = s.cell a := rfl

/-! receive -/

@[simp] theorem receive_regs (b : Byte) : (s.receive b).regs = s.regs := rfl
@[simp] theorem receive_pc (b : Byte) : (s.receive b).pc = s.pc := rfl
@[simp] theorem receive_cond (b : Byte) : (s.receive b).cond = s.cond := rfl
@[simp] theorem receive_mem (b : Byte) : (s.receive b).mem = s.mem := rfl
@[simp] theorem receive_runState (b : Byte) : (s.receive b).runState = s.runState := rfl
@[simp] theorem receive_haltCause (b : Byte) : (s.receive b).haltCause = s.haltCause := rfl
@[simp] theorem receive_held (b : Byte) : (s.receive b).held = s.held := rfl
@[simp] theorem receive_conIn (b : Byte) : (s.receive b).conIn = s.conIn ++ [b] := rfl
@[simp] theorem receive_conOut (b : Byte) : (s.receive b).conOut = s.conOut := rfl
@[simp] theorem receive_shutdownReq (b : Byte) : (s.receive b).shutdownReq = s.shutdownReq := rfl
@[simp] theorem receive_pollDraws (b : Byte) : (s.receive b).pollDraws = s.pollDraws := rfl
@[simp] theorem receive_pollCount (b : Byte) : (s.receive b).pollCount = s.pollCount := rfl
@[simp] theorem receive_reg (b : Byte) (r : Reg) : (s.receive b).reg r = s.reg r := rfl
@[simp] theorem receive_cell (b : Byte) (a : Word) : (s.receive b).cell a = s.cell a := rfl

/-! raiseShutdown -/

@[simp] theorem raiseShutdown_regs : (s.raiseShutdown).regs = s.regs := rfl
@[simp] theorem raiseShutdown_pc : (s.raiseShutdown).pc = s.pc := rfl
@[simp] theorem raiseShutdown_cond : (s.raiseShutdown).cond = s.cond := rfl
@[simp] theorem raiseShutdown_mem : (s.raiseShutdown).mem = s.mem := rfl
@[simp] theorem raiseShutdown_runState : (s.raiseShutdown).runState = s.runState := rfl
@[simp] theorem raiseShutdown_haltCause : (s.raiseShutdown).haltCause = s.haltCause := rfl
@[simp] theorem raiseShutdown_held : (s.raiseShutdown).held = s.held := rfl
@[simp] theorem raiseShutdown_conIn : (s.raiseShutdown).conIn = s.conIn := rfl
@[simp] theorem raiseShutdown_conOut : (s.raiseShutdown).conOut = s.conOut := rfl
@[simp] theorem raiseShutdown_shutdownReq : (s.raiseShutdown).shutdownReq = true := rfl
@[simp] theorem raiseShutdown_pollDraws : (s.raiseShutdown).pollDraws = s.pollDraws := rfl
@[simp] theorem raiseShutdown_pollCount : (s.raiseShutdown).pollCount = s.pollCount := rfl
@[simp] theorem raiseShutdown_reg (r : Reg) : (s.raiseShutdown).reg r = s.reg r := rfl
@[simp] theorem raiseShutdown_cell (a : Word) : (s.raiseShutdown).cell a = s.cell a := rfl

/-! settlePolls -/

@[simp] theorem settlePolls_regs (ds : List Bool) : (s.settlePolls ds).regs = s.regs := rfl
@[simp] theorem settlePolls_pc (ds : List Bool) : (s.settlePolls ds).pc = s.pc := rfl
@[simp] theorem settlePolls_cond (ds : List Bool) : (s.settlePolls ds).cond = s.cond := rfl
@[simp] theorem settlePolls_mem (ds : List Bool) : (s.settlePolls ds).mem = s.mem := rfl
@[simp] theorem settlePolls_runState (ds : List Bool) : (s.settlePolls ds).runState = s.runState := rfl
@[simp] theorem settlePolls_haltCause (ds : List Bool) : (s.settlePolls ds).haltCause = s.haltCause := rfl
@[simp] theorem settlePolls_held (ds : List Bool) : (s.settlePolls ds).held = s.held := rfl
@[simp] theorem settlePolls_conIn (ds : List Bool) : (s.settlePolls ds).conIn = s.conIn := rfl
@[simp] theorem settlePolls_conOut (ds : List Bool) : (s.settlePolls ds).conOut = s.conOut := rfl
@[simp] theorem settlePolls_shutdownReq (ds : List Bool) : (s.settlePolls ds).shutdownReq = s.shutdownReq := rfl
@[simp] theorem settlePolls_pollDraws (ds : List Bool) : (s.settlePolls ds).pollDraws = s.pollDraws ++ ds := rfl
@[simp] theorem settlePolls_pollCount (ds : List Bool) : (s.settlePolls ds).pollCount = s.pollCount := rfl
@[simp] theorem settlePolls_reg (ds : List Bool) (r : Reg) : (s.settlePolls ds).reg r = s.reg r := rfl
@[simp] theorem settlePolls_cell (ds : List Bool) (a : Word) : (s.settlePolls ds).cell a = s.cell a := rfl

end Sys2Proof.Machine.Laws
end

