-- ==== Sys2Proof/Laws/Memory.lean ====
section
/-! SUPPORT. Memory: reading after writing, and the canonical form. -/

namespace Sys2Proof.Machine.Laws

@[simp] theorem read_nil (a : Nat) : Memory.read [] a = Memory.unlisted := rfl

theorem read_cons (k : Nat) (w : Word) (m : Memory) (a : Nat) :
    Memory.read ((k, w) :: m) a = if k = a then w else Memory.read m a := rfl

/-- Below the first address nothing is listed. -/
theorem read_below : ∀ {lo : Nat} {m : Memory} {a : Nat}, Memory.wfFrom lo m = true → a < lo →
    Memory.read m a = Memory.unlisted
  | _, [], _, _, _ => rfl
  | lo, (k, w) :: m, a, h, ha => by
    simp only [Memory.wfFrom, Bool.and_eq_true, decide_eq_true_eq] at h
    obtain ⟨⟨⟨h1, -⟩, -⟩, h4⟩ := h
    rw [read_cons, if_neg (by omega), read_below h4 (by omega)]

/-- The canonical form from an address on is one from every lower address on. -/
theorem wfFrom_mono {lo lo' : Nat} {m : Memory} (hle : lo' ≤ lo) (h : Memory.wfFrom lo m = true) :
    Memory.wfFrom lo' m = true := by
  cases m with
  | nil => rfl
  | cons e m =>
    obtain ⟨k, w⟩ := e
    simp only [Memory.wfFrom, Bool.and_eq_true, decide_eq_true_eq] at h ⊢
    exact ⟨⟨⟨by omega, h.1.1.2⟩, h.1.2⟩, h.2⟩

theorem wfFrom_putFront {lo a : Nat} {v : Word} {m : Memory} (hlo : lo ≤ a) (ha : a < 65536)
    (h : Memory.wfFrom (a + 1) m = true) : Memory.wfFrom lo (Memory.cons a v m) = true := by
  unfold Memory.cons
  split
  · exact wfFrom_mono (by omega) h
  · rename_i hv
    simp only [Memory.wfFrom, Bool.and_eq_true, decide_eq_true_eq]
    exact ⟨⟨⟨hlo, ha⟩, hv⟩, h⟩

theorem read_putFront_same (a : Nat) (v : Word) (m : Memory) (h : Memory.read m a = Memory.unlisted) :
    Memory.read (Memory.cons a v m) a = v := by
  unfold Memory.cons
  split
  · rename_i hv
    rw [h, hv]
  · rw [read_cons, if_pos rfl]

theorem read_putFront_ne {a b : Nat} (v : Word) (m : Memory) (h : b ≠ a) :
    Memory.read (Memory.cons a v m) b = Memory.read m b := by
  unfold Memory.cons
  split
  · rfl
  · rw [read_cons, if_neg (Ne.symm h)]

theorem wfFrom_write : ∀ {lo : Nat} {m : Memory} {a : Nat} {v : Word}, Memory.wfFrom lo m = true → lo ≤ a → a < 65536 →
    Memory.wfFrom lo (Memory.write m a v) = true
  | lo, [], a, v, _, hlo, ha => wfFrom_putFront hlo ha rfl
  | lo, (k, w) :: m, a, v, h, hlo, ha => by
    have h' := h
    simp only [Memory.wfFrom, Bool.and_eq_true, decide_eq_true_eq] at h'
    obtain ⟨⟨⟨h1, h2⟩, h3⟩, h4⟩ := h'
    unfold Memory.write
    split
    · rename_i hak
      refine wfFrom_putFront hlo ha ?_
      simp only [Memory.wfFrom, Bool.and_eq_true, decide_eq_true_eq]
      exact ⟨⟨⟨by omega, h2⟩, h3⟩, h4⟩
    · split
      · rename_i hak
        subst hak
        exact wfFrom_putFront hlo ha h4
      · simp only [Memory.wfFrom, Bool.and_eq_true, decide_eq_true_eq]
        exact ⟨⟨⟨h1, h2⟩, h3⟩, wfFrom_write h4 (by omega) ha⟩

/-- A store keeps the canonical form. -/
theorem write_wf {m : Memory} {a : Nat} (v : Word) (h : m.wf = true) (ha : a < 65536) : (m.write a v).wf = true :=
  wfFrom_write h (Nat.zero_le a) ha

theorem read_write_same_from : ∀ {lo : Nat} {m : Memory} (a : Nat) (v : Word), Memory.wfFrom lo m = true →
    Memory.read (Memory.write m a v) a = v
  | _, [], a, v, _ => read_putFront_same a v [] rfl
  | lo, (k, w) :: m, a, v, h => by
    have h' := h
    simp only [Memory.wfFrom, Bool.and_eq_true, decide_eq_true_eq] at h'
    obtain ⟨-, h4⟩ := h'
    unfold Memory.write
    split
    · rename_i hak
      refine read_putFront_same a v _ ?_
      rw [read_cons, if_neg (by omega), read_below h4 (by omega)]
    · split
      · rename_i hak
        subst hak
        exact read_putFront_same a v m (read_below h4 (by omega))
      · rename_i h1 h2
        rw [read_cons, if_neg (fun e => h2 e.symm), read_write_same_from a v h4]

/-- A read after a store to the same cell gives the word stored, in a canonical memory. -/
theorem read_write_same {m : Memory} (a : Nat) (v : Word) (h : m.wf = true) : (m.write a v).read a = v :=
  read_write_same_from a v h

/-- A store leaves every other cell alone, in any memory. -/
theorem read_write_ne : ∀ (m : Memory) {a b : Nat} (v : Word), b ≠ a → (Memory.write m a v).read b = Memory.read m b
  | [], _, _, v, h => read_putFront_ne v [] h
  | (k, w) :: m, a, b, v, h => by
    unfold Memory.write
    split
    · exact read_putFront_ne v _ h
    · split
      · rename_i hak
        subst hak
        rw [read_putFront_ne v m h, read_cons, if_neg (Ne.symm h)]
      · rw [read_cons, read_cons, read_write_ne m v h]

@[simp] theorem setCell_wf {s : State} (a v : Word) (h : s.mem.wf = true) : (s.setCell a v).mem.wf = true :=
  write_wf v h a.isLt

theorem setCell_cell_same {s : State} (a v : Word) (h : s.mem.wf = true) : (s.setCell a v).cell a = v :=
  read_write_same a.toNat v h

theorem setCell_cell_ne (s : State) {a b : Word} (v : Word) (h : b ≠ a) : (s.setCell a v).cell b = s.cell b :=
  read_write_ne s.mem v (fun e => h (BitVec.eq_of_toNat_eq e))

/-- Reset memory is canonical. -/
theorem reset_mem_wf : State.reset.mem.wf = true := rfl

end Sys2Proof.Machine.Laws
end

