-- ==== Sys2Proof/Laws/Registers.lean ====
section
/-! SUPPORT. The register file and the flags: reading after writing, and what `writeDest` does. -/

namespace Sys2Proof.Machine.Laws

@[simp] theorem get_set_same (f : Regs) (r : Reg) (v : Word) : (f.set r v).get r = v := by cases r <;> rfl

theorem get_set_ne (f : Regs) {r r' : Reg} (v : Word) (h : r' ≠ r) : (f.set r v).get r' = f.get r' := by
  cases r <;> cases r' <;> first | rfl | exact absurd rfl h

@[simp] theorem setReg_reg_same (s : State) (r : Reg) (v : Word) : (s.setReg r v).reg r = v := get_set_same _ _ _

theorem setReg_reg_ne (s : State) {r r' : Reg} (v : Word) (h : r' ≠ r) : (s.setReg r v).reg r' = s.reg r' :=
  get_set_ne _ _ h

/-- Two register files that read alike are equal. -/
theorem regs_ext {f g : Regs} (h : ∀ r, f.get r = g.get r) : f = g := by
  obtain ⟨a0, a1, a2, a3, a4, a5, a6, a7⟩ := f
  obtain ⟨b0, b1, b2, b3, b4, b5, b6, b7⟩ := g
  have h0 := h .r0
  have h1 := h .r1
  have h2 := h .r2
  have h3 := h .r3
  have h4 := h .r4
  have h5 := h .r5
  have h6 := h .r6
  have h7 := h .r7
  simp only [Regs.get] at h0 h1 h2 h3 h4 h5 h6 h7
  subst h0 h1 h2 h3 h4 h5 h6 h7
  rfl

theorem set_comm (f : Regs) {r r' : Reg} (v v' : Word) (h : r ≠ r') :
    (f.set r v).set r' v' = (f.set r' v').set r v := by
  cases r <;> cases r' <;> first | rfl | exact absurd rfl h

/-- The three flag values are one-hot, so different and not zero (R26). -/
theorem flag_values_distinct :
    config.flPos ≠ 0b000#3 ∧ config.flZro ≠ 0b000#3 ∧ config.flNeg ≠ 0b000#3 ∧ config.flPos ≠ config.flZro ∧
      config.flPos ≠ config.flNeg ∧ config.flZro ≠ config.flNeg := by decide

/-- A flag update gives one of the three values (R87). -/
theorem flagsOf_cases (v : Word) : flagsOf v = config.flPos ∨ flagsOf v = config.flZro ∨ flagsOf v = config.flNeg := by
  unfold flagsOf
  split
  · exact .inr (.inl rfl)
  · split
    · exact .inr (.inr rfl)
    · exact .inl rfl

theorem flagsOf_zero {v : Word} (h : v.toNat = 0) : flagsOf v = config.flZro := by
  have hv : v = 0x0000#16 := BitVec.eq_of_toNat_eq h
  simp [flagsOf, hv]

theorem flagsOf_neg {v : Word} (h : 32768 ≤ v.toNat) : flagsOf v = config.flNeg := by
  have hb : v.getLsbD 15 = true := by
    have := v.isLt
    simp only [BitVec.getLsbD, Nat.testBit_eq_decide_div_mod_eq]
    simp only [decide_eq_true_eq]
    omega
  have hv : v ≠ 0x0000#16 := by
    rintro rfl
    simp at h
  rw [flagsOf, if_neg hv, if_pos hb]

theorem flagsOf_pos {v : Word} (h0 : 0 < v.toNat) (h : v.toNat < 32768) : flagsOf v = config.flPos := by
  have hb : ¬ v.getLsbD 15 = true := by
    simp only [BitVec.getLsbD, Nat.testBit_eq_decide_div_mod_eq]
    simp only [decide_eq_true_eq]
    omega
  have hv : v ≠ 0x0000#16 := by
    rintro rfl
    simp at h0
  rw [flagsOf, if_neg hv, if_neg hb]

/-! `writeDest` (R86). -/

@[simp] theorem writeDest_reg_same (dr : Reg) (v : Word) (s : State) : (writeDest dr v s).reg dr = v := by
  simp [writeDest, setcc]

theorem writeDest_reg_ne {dr r : Reg} (v : Word) (s : State) (h : r ≠ dr) : (writeDest dr v s).reg r = s.reg r := by
  simp [writeDest, setcc, setReg_reg_ne s v h]

@[simp] theorem writeDest_cond (dr : Reg) (v : Word) (s : State) : (writeDest dr v s).cond = flagsOf v := by
  simp [writeDest, setcc]

@[simp] theorem writeDest_regs (dr : Reg) (v : Word) (s : State) : (writeDest dr v s).regs = s.regs.set dr v := rfl

@[simp] theorem writeDest_pc (dr : Reg) (v : Word) (s : State) : (writeDest dr v s).pc = s.pc := rfl

@[simp] theorem writeDest_mem (dr : Reg) (v : Word) (s : State) : (writeDest dr v s).mem = s.mem := rfl

@[simp] theorem writeDest_cell (dr : Reg) (v a : Word) (s : State) : (writeDest dr v s).cell a = s.cell a := rfl

@[simp] theorem writeDest_runState (dr : Reg) (v : Word) (s : State) : (writeDest dr v s).runState = s.runState := rfl

@[simp] theorem writeDest_haltCause (dr : Reg) (v : Word) (s : State) : (writeDest dr v s).haltCause = s.haltCause := rfl

@[simp] theorem writeDest_held (dr : Reg) (v : Word) (s : State) : (writeDest dr v s).held = s.held := rfl

@[simp] theorem writeDest_conIn (dr : Reg) (v : Word) (s : State) : (writeDest dr v s).conIn = s.conIn := rfl

@[simp] theorem writeDest_conOut (dr : Reg) (v : Word) (s : State) : (writeDest dr v s).conOut = s.conOut := rfl

@[simp] theorem writeDest_shutdownReq (dr : Reg) (v : Word) (s : State) :
    (writeDest dr v s).shutdownReq = s.shutdownReq := rfl

@[simp] theorem writeDest_pollDraws (dr : Reg) (v : Word) (s : State) :
    (writeDest dr v s).pollDraws = s.pollDraws := rfl

@[simp] theorem writeDest_pollCount (dr : Reg) (v : Word) (s : State) :
    (writeDest dr v s).pollCount = s.pollCount := rfl

end Sys2Proof.Machine.Laws
end

