-- ==== Sys2Proof/Laws/Console.lean ====
section
/-! SUPPORT. The console poll, the keyboard latch and MemRead: what each can do, said once. -/

namespace Sys2Proof.Machine.Laws

/-! ConsolePoll (R90). -/

/-- A poll answers nothing and takes nothing, or delivers the head of the input stream. -/
theorem consolePoll_cases (c : Config) (s : State) :
    (consolePoll c s = (none, s.usePoll) ∧ (c.kbdPoll = .never ∨ s.conIn = [] ∨ s.pollReady = false)) ∨
      ∃ b rest, c.kbdPoll = .query ∧ s.conIn = b :: rest ∧ s.pollReady = true ∧
        consolePoll c s = (some b, { s.usePoll with conIn := rest }) := by
  unfold consolePoll
  split
  · rename_i b rest hk h
    split
    · rename_i hr
      exact .inr ⟨b, rest, hk, h, hr, rfl⟩
    · rename_i hr
      exact .inl ⟨rfl, .inr (.inr (by simpa using hr))⟩
  · rename_i hk h
    exact .inl ⟨rfl, .inr (.inl h)⟩
  · rename_i hk
    exact .inl ⟨rfl, .inl hk⟩

theorem consolePoll_empty (c : Config) {s : State} (h : s.conIn = []) : consolePoll c s = (none, s.usePoll) := by
  obtain ⟨h', -⟩ | ⟨b, rest, -, h', -⟩ := consolePoll_cases c s
  · exact h'
  · rw [h] at h'
    cases h'

/-- What an update of fields the poll does not read commutes with. -/
theorem consolePoll_setReg (c : Config) (s : State) (r : Reg) (v : Word) :
    consolePoll c (s.setReg r v) = ((consolePoll c s).1, (consolePoll c s).2.setReg r v) := by
  have hp : (s.setReg r v).pollReady = s.pollReady := rfl
  unfold consolePoll
  rw [setReg_conIn, hp]
  rcases c.kbdPoll with _ | _
  · rcases s.conIn with _ | ⟨b, rest⟩
    · rfl
    · dsimp only
      split <;> rfl
  · rfl

/-! KbdLatch (R43). -/

/-- The latch sets both cells from a delivered byte, or clears the status cell. -/
theorem kbdLatchIn_cases (c : Config) (s : State) :
    (kbdLatchIn c s = s.usePoll.setCell c.kbsrAddr 0x0000#16 ∧
        (c.kbdPoll = .never ∨ s.conIn = [] ∨ s.pollReady = false)) ∨
      ∃ ch rest, c.kbdPoll = .query ∧ s.conIn = ch :: rest ∧ s.pollReady = true ∧
        kbdLatchIn c s =
          ({ s.usePoll with conIn := rest }.setCell c.kbsrAddr 0x8000#16).setCell c.kbdrAddr (zext ch) := by
  unfold kbdLatchIn
  obtain ⟨h, h'⟩ | ⟨ch, rest, h0, h1, h2, h⟩ := consolePoll_cases c s
  · rw [h]
    exact .inl ⟨rfl, h'⟩
  · rw [h]
    exact .inr ⟨ch, rest, h0, h1, h2, rfl⟩

/-- MemRead leaves the state alone, or is a read of KBSR_ADDR that makes one poll. -/
theorem memReadIn_cases (c : Config) (a : Word) (s : State) :
    (a ≠ c.kbsrAddr ∧ memReadIn c a s = (s.cell a, s)) ∨
      a = c.kbsrAddr ∧
        ((memReadIn c a s).2 = s.usePoll.setCell c.kbsrAddr 0x0000#16 ∨
          ∃ ch rest, s.conIn = ch :: rest ∧ s.pollReady = true ∧
            (memReadIn c a s).2 =
              ({ s.usePoll with conIn := rest }.setCell c.kbsrAddr 0x8000#16).setCell c.kbdrAddr (zext ch)) := by
  by_cases h : a = c.kbsrAddr
  · refine .inr ⟨h, ?_⟩
    simp only [memReadIn, if_pos h]
    obtain ⟨h, -⟩ | ⟨ch, rest, -, h⟩ := kbdLatchIn_cases c s
    · exact .inl h
    · exact .inr ⟨ch, rest, h⟩
  · exact .inl ⟨h, by simp [memReadIn, h]⟩

/-- The value MemRead answers is the cell AFTER the latch update (R41). -/
theorem memReadIn_value (c : Config) (a : Word) (s : State) : (memReadIn c a s).1 = (memReadIn c a s).2.cell a := rfl

theorem memRead_value (a : Word) (s : State) : (memRead a s).1 = (memRead a s).2.cell a := rfl

/-- A read of any address but KBSR_ADDR has no side effect (R41). -/
theorem memRead_plain {a : Word} (s : State) (h : a ≠ config.kbsrAddr) : memRead a s = (s.cell a, s) := by
  simp [memRead, memReadIn, h]

section Unchanged

variable (a : Word) (s : State)

@[simp] theorem memRead_regs : (memRead a s).2.regs = s.regs := by
  obtain ⟨-, h⟩ | ⟨-, h | ⟨ch, rest, -, -, h⟩⟩ := memReadIn_cases config a s <;> unfold memRead <;> rw [h] <;> rfl

@[simp] theorem memRead_reg (r : Reg) : (memRead a s).2.reg r = s.reg r := by simp [State.reg]

@[simp] theorem memRead_pc : (memRead a s).2.pc = s.pc := by
  obtain ⟨-, h⟩ | ⟨-, h | ⟨ch, rest, -, -, h⟩⟩ := memReadIn_cases config a s <;> unfold memRead <;> rw [h] <;> rfl

@[simp] theorem memRead_cond : (memRead a s).2.cond = s.cond := by
  obtain ⟨-, h⟩ | ⟨-, h | ⟨ch, rest, -, -, h⟩⟩ := memReadIn_cases config a s <;> unfold memRead <;> rw [h] <;> rfl

@[simp] theorem memRead_runState : (memRead a s).2.runState = s.runState := by
  obtain ⟨-, h⟩ | ⟨-, h | ⟨ch, rest, -, -, h⟩⟩ := memReadIn_cases config a s <;> unfold memRead <;> rw [h] <;> rfl

@[simp] theorem memRead_haltCause : (memRead a s).2.haltCause = s.haltCause := by
  obtain ⟨-, h⟩ | ⟨-, h | ⟨ch, rest, -, -, h⟩⟩ := memReadIn_cases config a s <;> unfold memRead <;> rw [h] <;> rfl

@[simp] theorem memRead_held : (memRead a s).2.held = s.held := by
  obtain ⟨-, h⟩ | ⟨-, h | ⟨ch, rest, -, -, h⟩⟩ := memReadIn_cases config a s <;> unfold memRead <;> rw [h] <;> rfl

@[simp] theorem memRead_conOut : (memRead a s).2.conOut = s.conOut := by
  obtain ⟨-, h⟩ | ⟨-, h | ⟨ch, rest, -, -, h⟩⟩ := memReadIn_cases config a s <;> unfold memRead <;> rw [h] <;> rfl

@[simp] theorem memRead_shutdownReq : (memRead a s).2.shutdownReq = s.shutdownReq := by
  obtain ⟨-, h⟩ | ⟨-, h | ⟨ch, rest, -, -, h⟩⟩ := memReadIn_cases config a s <;> unfold memRead <;> rw [h] <;> rfl

end Unchanged

/-- No cell but the two keyboard latches changes under a read. -/
theorem memRead_cell {a b : Word} (s : State) (h1 : b ≠ config.kbsrAddr) (h2 : b ≠ config.kbdrAddr) :
    (memRead a s).2.cell b = s.cell b := by
  obtain ⟨-, h⟩ | ⟨-, h | ⟨ch, rest, -, -, h⟩⟩ := memReadIn_cases config a s <;> unfold memRead <;> rw [h]
  · rw [setCell_cell_ne _ _ h1, usePoll_cell]
  · rw [setCell_cell_ne _ _ h2, setCell_cell_ne _ _ h1]
    rfl

/-- A read takes at most the head of the input stream. -/
theorem memRead_conIn (a : Word) (s : State) :
    (memRead a s).2.conIn = s.conIn ∨ ∃ c, s.conIn = c :: (memRead a s).2.conIn := by
  obtain ⟨-, h⟩ | ⟨-, h | ⟨ch, rest, hin, -, h⟩⟩ := memReadIn_cases config a s <;> unfold memRead <;> rw [h]
  · exact .inl rfl
  · exact .inl rfl
  · exact .inr ⟨ch, by simpa using hin⟩

/-- A read keeps the canonical form of memory. -/
theorem memRead_wf (a : Word) {s : State} (hs : s.mem.wf = true) : (memRead a s).2.mem.wf = true := by
  obtain ⟨-, h⟩ | ⟨-, h | ⟨ch, rest, -, -, h⟩⟩ := memReadIn_cases config a s <;> unfold memRead <;> rw [h]
  · exact hs
  · exact setCell_wf _ _ hs
  · exact setCell_wf _ _ (setCell_wf _ _ hs)

/-- With the default parameters a read of the keyboard register answers the pending character, or zero (R44). -/
theorem memRead_keyboard {s : State} (hs : s.mem.wf = true) :
    ((memRead config.kbsrAddr s).1 = 0x0000#16 ∧ (memRead config.kbsrAddr s).2.conIn = s.conIn) ∨
      ∃ c rest, s.conIn = c :: rest ∧ (memRead config.kbsrAddr s).1 = zext c ∧
        (memRead config.kbsrAddr s).2.conIn = rest := by
  obtain ⟨h, -⟩ | ⟨-, h | ⟨ch, rest, hin, -, h⟩⟩ := memReadIn_cases config config.kbsrAddr s
  · exact absurd rfl h
  · refine .inl ⟨?_, ?_⟩ <;> unfold memRead
    · rw [memReadIn_value, h]
      exact setCell_cell_same (s := s.usePoll) _ _ hs
    · rw [h]
      rfl
  · refine .inr ⟨ch, rest, hin, ?_, ?_⟩ <;> unfold memRead
    · rw [memReadIn_value, h]
      exact setCell_cell_same _ _ (setCell_wf _ _ hs)
    · rw [h]
      rfl

/-- A read of the keyboard register makes one poll. -/
theorem memRead_keyboard_draws (s : State) : (memRead config.kbsrAddr s).2.pollDraws = s.pollDraws.tail := by
  obtain ⟨h, -⟩ | ⟨-, h | ⟨ch, rest, -, -, h⟩⟩ := memReadIn_cases config config.kbsrAddr s
  · exact absurd rfl h
  · unfold memRead
    rw [h]
    rfl
  · unfold memRead
    rw [h]
    rfl

/-- A read sees and keeps whatever is in the general registers. -/
theorem memRead_setReg (a : Word) (s : State) (r : Reg) (v : Word) :
    memRead a (s.setReg r v) = ((memRead a s).1, (memRead a s).2.setReg r v) := by
  have hk : kbdLatchIn config (s.setReg r v) = (kbdLatchIn config s).setReg r v := by
    unfold kbdLatchIn
    rw [consolePoll_setReg config]
    split <;> rename_i heq <;> simp only [Prod.mk.injEq] at heq <;> obtain ⟨h1, rfl⟩ := heq
    · rcases hp : consolePoll config s with ⟨o, t⟩
      rw [hp] at h1
      simp only at h1
      subst h1
      rfl
    · rcases hp : consolePoll config s with ⟨o, t⟩
      rw [hp] at h1
      simp only at h1
      subst h1
      rfl
  unfold memRead memReadIn
  split
  · rw [hk]
    rfl
  · rfl

end Sys2Proof.Machine.Laws
end

