-- ==== Sys2Proof/Laws/Fields.lean ====
section
/-! SUPPORT. Fields of an instruction word, and which row of the opcode table a word decodes to. -/

namespace Sys2Proof.Machine.Laws

/-- A field that a mask covers is the field of the matched value. -/
theorem bitsAt_of_mask {lo n : Nat} {w m k : Word} (h : w &&& m = k) (hm : bitsAt lo n m = BitVec.allOnes n) :
    bitsAt lo n w = bitsAt lo n k := by
  subst h
  unfold bitsAt at hm ⊢
  rw [BitVec.extractLsb'_and, hm, BitVec.and_allOnes]

/-- The decoder's field is the numeric field (R8). -/
theorem bitsAt_toNat (lo n : Nat) (w : Word) : (bitsAt lo n w).toNat = fieldAt lo n w := by
  simp [bitsAt, fieldAt, BitVec.extractLsb'_toNat, Nat.shiftRight_eq_div_pow]

theorem fieldAt_lt (lo n : Nat) (w : Word) : fieldAt lo n w < 2 ^ n := Nat.mod_lt _ (Nat.two_pow_pos n)

/-- The decoder's register is the one whose number the field holds (R20). -/
theorem regField_eq_regAt (lo : Nat) (w : Word) : regField lo w = regAt lo w := by
  unfold regField regAt Reg.ofBits
  rw [bitsAt_toNat]
  have h := fieldAt_lt lo 3 w
  generalize fieldAt lo 3 w = n at h
  match n, h with
  | 0, _ | 1, _ | 2, _ | 3, _ | 4, _ | 5, _ | 6, _ | 7, _ => rfl

/-- `sext` is R10's formula. -/
theorem sext_toNat {n : Nat} (h0 : 0 < n) (h : n ≤ 16) (v : BitVec n) : (sext v).toNat = sextNat n v.toNat := by
  have hv := v.isLt
  have h16 : 2 ^ n ≤ 65536 := Nat.pow_le_pow_right (by decide) h
  have h2 : 2 ^ n = 2 * 2 ^ (n - 1) := by
    rw [← Nat.pow_succ']
    congr 1
    omega
  unfold sext sextNat
  rw [BitVec.toNat_signExtend, BitVec.msb_eq_decide]
  rw [BitVec.toNat_setWidth]
  by_cases hm : v.toNat < 2 ^ (n - 1)
  · have : ¬ 2 ^ (n - 1) ≤ v.toNat := by omega
    simp only [this, decide_false, hm, if_true]
    simp
    omega
  · have : 2 ^ (n - 1) ≤ v.toNat := by omega
    simp only [this, decide_true, hm, if_true, if_false]
    have e : v.toNat % 2 ^ 16 = v.toNat := Nat.mod_eq_of_lt (by omega)
    rw [e]
    omega

theorem sext_bitsAt_toNat {n : Nat} (h0 : 0 < n) (h : n ≤ 16) (lo : Nat) (w : Word) :
    (sext (bitsAt lo n w)).toNat = sextNat n (fieldAt lo n w) := by rw [sext_toNat h0 h, bitsAt_toNat]

theorem sextNat_lt {n : Nat} (h0 : 0 < n) (h : n ≤ 16) (lo : Nat) (w : Word) :
    sextNat n (fieldAt lo n w) < 65536 := by
  rw [← sext_bitsAt_toNat h0 h]
  exact BitVec.isLt _

/-- Concatenation as a number: the left operand in the high bits (R9). -/
theorem append_toNat {n m : Nat} (x : BitVec n) (y : BitVec m) : (x ++ y).toNat = x.toNat * 2 ^ m + y.toNat := by
  rw [BitVec.toNat_append, ← Nat.shiftLeft_add_eq_or_of_lt y.isLt, Nat.shiftLeft_eq]

/-- A register's number selects it. -/
@[simp] theorem ofBits_bits (r : Reg) : Reg.ofBits r.bits = r := by cases r <;> rfl

/-- The register a 3-bit field selects has the field as its number. -/
@[simp] theorem bits_ofBits : ∀ b : BitVec 3, (Reg.ofBits b).bits = b := by decide

/-! The rows of the opcode table, by match and mask (R66). -/

section Rows

variable {w : Word}

theorem decode_br (h : w &&& 0xF000#16 = 0x0000#16) : decode w = .br (bitsAt 9 3 w) (bitsAt 0 9 w) := by
  have ho := bitsAt_of_mask (lo := 12) (n := 4) h (by decide)
  simp only [decode, ho]
  rfl

theorem decode_addReg (h : w &&& 0xF020#16 = 0x1000#16) :
    decode w = .addReg (regField 9 w) (regField 6 w) (regField 0 w) := by
  have ho := bitsAt_of_mask (lo := 12) (n := 4) h (by decide)
  have hm := bitsAt_of_mask (lo := 5) (n := 1) h (by decide)
  simp only [decode, ho, hm]
  rfl

theorem decode_addImm (h : w &&& 0xF020#16 = 0x1020#16) :
    decode w = .addImm (regField 9 w) (regField 6 w) (bitsAt 0 5 w) := by
  have ho := bitsAt_of_mask (lo := 12) (n := 4) h (by decide)
  have hm := bitsAt_of_mask (lo := 5) (n := 1) h (by decide)
  simp only [decode, ho, hm]
  rfl

theorem decode_ld (h : w &&& 0xF000#16 = 0x2000#16) : decode w = .ld (regField 9 w) (bitsAt 0 9 w) := by
  have ho := bitsAt_of_mask (lo := 12) (n := 4) h (by decide)
  simp only [decode, ho]
  rfl

theorem decode_st (h : w &&& 0xF000#16 = 0x3000#16) : decode w = .st (regField 9 w) (bitsAt 0 9 w) := by
  have ho := bitsAt_of_mask (lo := 12) (n := 4) h (by decide)
  simp only [decode, ho]
  rfl

theorem decode_jsr (h : w &&& 0xF800#16 = 0x4800#16) : decode w = .jsr (bitsAt 0 11 w) := by
  have ho := bitsAt_of_mask (lo := 12) (n := 4) h (by decide)
  have hm := bitsAt_of_mask (lo := 11) (n := 1) h (by decide)
  simp only [decode, ho, hm]
  rfl

theorem decode_jsrr (h : w &&& 0xF800#16 = 0x4000#16) : decode w = .jsrr (regField 6 w) := by
  have ho := bitsAt_of_mask (lo := 12) (n := 4) h (by decide)
  have hm := bitsAt_of_mask (lo := 11) (n := 1) h (by decide)
  simp only [decode, ho, hm]
  rfl

theorem decode_andReg (h : w &&& 0xF020#16 = 0x5000#16) :
    decode w = .andReg (regField 9 w) (regField 6 w) (regField 0 w) := by
  have ho := bitsAt_of_mask (lo := 12) (n := 4) h (by decide)
  have hm := bitsAt_of_mask (lo := 5) (n := 1) h (by decide)
  simp only [decode, ho, hm]
  rfl

theorem decode_andImm (h : w &&& 0xF020#16 = 0x5020#16) :
    decode w = .andImm (regField 9 w) (regField 6 w) (bitsAt 0 5 w) := by
  have ho := bitsAt_of_mask (lo := 12) (n := 4) h (by decide)
  have hm := bitsAt_of_mask (lo := 5) (n := 1) h (by decide)
  simp only [decode, ho, hm]
  rfl

theorem decode_ldr (h : w &&& 0xF000#16 = 0x6000#16) :
    decode w = .ldr (regField 9 w) (regField 6 w) (bitsAt 0 6 w) := by
  have ho := bitsAt_of_mask (lo := 12) (n := 4) h (by decide)
  simp only [decode, ho]
  rfl

theorem decode_str (h : w &&& 0xF000#16 = 0x7000#16) :
    decode w = .str (regField 9 w) (regField 6 w) (bitsAt 0 6 w) := by
  have ho := bitsAt_of_mask (lo := 12) (n := 4) h (by decide)
  simp only [decode, ho]
  rfl

theorem decode_rti (h : w &&& 0xF000#16 = 0x8000#16) : decode w = .rti := by
  have ho := bitsAt_of_mask (lo := 12) (n := 4) h (by decide)
  simp only [decode, ho]
  rfl

theorem decode_not (h : w &&& 0xF000#16 = 0x9000#16) : decode w = .not (regField 9 w) (regField 6 w) := by
  have ho := bitsAt_of_mask (lo := 12) (n := 4) h (by decide)
  simp only [decode, ho]
  rfl

theorem decode_ldi (h : w &&& 0xF000#16 = 0xA000#16) : decode w = .ldi (regField 9 w) (bitsAt 0 9 w) := by
  have ho := bitsAt_of_mask (lo := 12) (n := 4) h (by decide)
  simp only [decode, ho]
  rfl

theorem decode_sti (h : w &&& 0xF000#16 = 0xB000#16) : decode w = .sti (regField 9 w) (bitsAt 0 9 w) := by
  have ho := bitsAt_of_mask (lo := 12) (n := 4) h (by decide)
  simp only [decode, ho]
  rfl

theorem decode_jmp (h : w &&& 0xF000#16 = 0xC000#16) : decode w = .jmp (regField 6 w) := by
  have ho := bitsAt_of_mask (lo := 12) (n := 4) h (by decide)
  simp only [decode, ho]
  rfl

theorem decode_res (h : w &&& 0xF000#16 = 0xD000#16) : decode w = .res := by
  have ho := bitsAt_of_mask (lo := 12) (n := 4) h (by decide)
  simp only [decode, ho]
  rfl

theorem decode_lea (h : w &&& 0xF000#16 = 0xE000#16) : decode w = .lea (regField 9 w) (bitsAt 0 9 w) := by
  have ho := bitsAt_of_mask (lo := 12) (n := 4) h (by decide)
  simp only [decode, ho]
  rfl

theorem decode_trap_row (h : w &&& 0xF000#16 = 0xF000#16) : decode w = decodeTrap (bitsAt 0 8 w) := by
  have ho := bitsAt_of_mask (lo := 12) (n := 4) h (by decide)
  simp only [decode, ho]
  rfl

end Rows

end Sys2Proof.Machine.Laws
end

