-- ==== Sys2Proof/Laws/PerInstr.lean ====
section
/-! SUPPORT. Statements about every instruction, one lemma per constructor. -/

/-! OpcodeBits: the encoder writes the row's opcode number in bits [15:12] (30_encoding.md R65, R66). -/

namespace Sys2Proof.Laws.OpcodeBits

open Sys2Proof.Machine
open Sys2Proof.Machine.Laws

/-- The opcode number of the row (R65). -/
def opcode : Instr → Nat
  | .br _ _ => 0
  | .addReg _ _ _ => 1
  | .addImm _ _ _ => 1
  | .ld _ _ => 2
  | .st _ _ => 3
  | .jsr _ => 4
  | .jsrr _ => 4
  | .andReg _ _ _ => 5
  | .andImm _ _ _ => 5
  | .ldr _ _ _ => 6
  | .str _ _ _ => 7
  | .rti => 8
  | .not _ _ => 9
  | .ldi _ _ => 10
  | .sti _ _ => 11
  | .jmp _ => 12
  | .res => 13
  | .lea _ _ => 14
  | .trapGetc => 15
  | .trapOut => 15
  | .trapPuts => 15
  | .trapIn => 15
  | .trapPutsp => 15
  | .trapHalt => 15
  | .trap _ => 15
  | .ret => 12

def Statement (i : Instr) : Prop := fieldAt 12 4 (encode i) = opcode i

theorem br (nzp : BitVec 3) (offset9 : BitVec 9) : Statement (.br nzp offset9) := by
  have h0 := BitVec.isLt nzp
  have h1 := BitVec.isLt offset9
  simp only [Statement, opcode, encode, config, opcodes, append_toNat, fieldAt, BitVec.toNat_ofNat]
  omega

theorem addReg (dr sr1 sr2 : Reg) : Statement (.addReg dr sr1 sr2) := by
  have h0 := dr.bits.isLt
  have h1 := sr1.bits.isLt
  have h2 := sr2.bits.isLt
  simp only [Statement, opcode, encode, config, opcodes, append_toNat, fieldAt, BitVec.toNat_ofNat]
  omega

theorem addImm (dr sr1 : Reg) (imm5 : BitVec 5) : Statement (.addImm dr sr1 imm5) := by
  have h0 := dr.bits.isLt
  have h1 := sr1.bits.isLt
  have h2 := BitVec.isLt imm5
  simp only [Statement, opcode, encode, config, opcodes, append_toNat, fieldAt, BitVec.toNat_ofNat]
  omega

theorem ld (dr : Reg) (offset9 : BitVec 9) : Statement (.ld dr offset9) := by
  have h0 := dr.bits.isLt
  have h1 := BitVec.isLt offset9
  simp only [Statement, opcode, encode, config, opcodes, append_toNat, fieldAt, BitVec.toNat_ofNat]
  omega

theorem st (sr : Reg) (offset9 : BitVec 9) : Statement (.st sr offset9) := by
  have h0 := sr.bits.isLt
  have h1 := BitVec.isLt offset9
  simp only [Statement, opcode, encode, config, opcodes, append_toNat, fieldAt, BitVec.toNat_ofNat]
  omega

theorem jsr (offset11 : BitVec 11) : Statement (.jsr offset11) := by
  have h0 := BitVec.isLt offset11
  simp only [Statement, opcode, encode, config, opcodes, append_toNat, fieldAt, BitVec.toNat_ofNat]
  omega

theorem jsrr (baseR : Reg) : Statement (.jsrr baseR) := by
  have h0 := baseR.bits.isLt
  simp only [Statement, opcode, encode, config, opcodes, append_toNat, fieldAt, BitVec.toNat_ofNat]
  omega

theorem andReg (dr sr1 sr2 : Reg) : Statement (.andReg dr sr1 sr2) := by
  have h0 := dr.bits.isLt
  have h1 := sr1.bits.isLt
  have h2 := sr2.bits.isLt
  simp only [Statement, opcode, encode, config, opcodes, append_toNat, fieldAt, BitVec.toNat_ofNat]
  omega

theorem andImm (dr sr1 : Reg) (imm5 : BitVec 5) : Statement (.andImm dr sr1 imm5) := by
  have h0 := dr.bits.isLt
  have h1 := sr1.bits.isLt
  have h2 := BitVec.isLt imm5
  simp only [Statement, opcode, encode, config, opcodes, append_toNat, fieldAt, BitVec.toNat_ofNat]
  omega

theorem ldr (dr baseR : Reg) (offset6 : BitVec 6) : Statement (.ldr dr baseR offset6) := by
  have h0 := dr.bits.isLt
  have h1 := baseR.bits.isLt
  have h2 := BitVec.isLt offset6
  simp only [Statement, opcode, encode, config, opcodes, append_toNat, fieldAt, BitVec.toNat_ofNat]
  omega

theorem str (sr baseR : Reg) (offset6 : BitVec 6) : Statement (.str sr baseR offset6) := by
  have h0 := sr.bits.isLt
  have h1 := baseR.bits.isLt
  have h2 := BitVec.isLt offset6
  simp only [Statement, opcode, encode, config, opcodes, append_toNat, fieldAt, BitVec.toNat_ofNat]
  omega

theorem rti : Statement .rti := by
  unfold Statement
  decide

theorem not (dr sr : Reg) : Statement (.not dr sr) := by
  have h0 := dr.bits.isLt
  have h1 := sr.bits.isLt
  simp only [Statement, opcode, encode, config, opcodes, append_toNat, fieldAt, BitVec.toNat_ofNat]
  omega

theorem ldi (dr : Reg) (offset9 : BitVec 9) : Statement (.ldi dr offset9) := by
  have h0 := dr.bits.isLt
  have h1 := BitVec.isLt offset9
  simp only [Statement, opcode, encode, config, opcodes, append_toNat, fieldAt, BitVec.toNat_ofNat]
  omega

theorem sti (sr : Reg) (offset9 : BitVec 9) : Statement (.sti sr offset9) := by
  have h0 := sr.bits.isLt
  have h1 := BitVec.isLt offset9
  simp only [Statement, opcode, encode, config, opcodes, append_toNat, fieldAt, BitVec.toNat_ofNat]
  omega

theorem jmp (baseR : Reg) : Statement (.jmp baseR) := by
  have h0 := baseR.bits.isLt
  simp only [Statement, opcode, encode, encodeJmp, config, opcodes, append_toNat, fieldAt, BitVec.toNat_ofNat]
  omega

theorem res : Statement .res := by
  unfold Statement
  decide

theorem lea (dr : Reg) (offset9 : BitVec 9) : Statement (.lea dr offset9) := by
  have h0 := dr.bits.isLt
  have h1 := BitVec.isLt offset9
  simp only [Statement, opcode, encode, config, opcodes, append_toNat, fieldAt, BitVec.toNat_ofNat]
  omega

theorem trapGetc : Statement .trapGetc := by
  unfold Statement
  decide

theorem trapOut : Statement .trapOut := by
  unfold Statement
  decide

theorem trapPuts : Statement .trapPuts := by
  unfold Statement
  decide

theorem trapIn : Statement .trapIn := by
  unfold Statement
  decide

theorem trapPutsp : Statement .trapPutsp := by
  unfold Statement
  decide

theorem trapHalt : Statement .trapHalt := by
  unfold Statement
  decide

theorem trap (trapvector8 : BitVec 8) : Statement (.trap trapvector8) := by
  have h0 := BitVec.isLt trapvector8
  simp only [Statement, opcode, encode, encodeTrap, config, opcodes, append_toNat, fieldAt, BitVec.toNat_ofNat]
  omega

theorem ret : Statement .ret := by
  unfold Statement
  decide

end Sys2Proof.Laws.OpcodeBits
end

