-- ==== Sys2Proof/Laws/Strings.lean ====
section
/-! SUPPORT. The string walk of PUTS and PUTSP: what it leaves alone, when it ends, and what a lap that does not end
has read. -/

namespace Sys2Proof.Machine.Laws

/-- A property that every read and every output keeps is kept by the walk. -/
theorem walkString_induction {P : State → State → Prop} (emit : Word → List Byte)
    (read : ∀ s a t, P s t → P s (memRead a t).2) (write : ∀ s bs t, P s t → P s (writeBytes bs t)) :
    ∀ (fuel : Nat) (a : Word) (s0 s : State), P s0 s → P s0 (walkString emit fuel a s).2
  | 0, _, _, _, hp => hp
  | fuel + 1, a, s0, s, hp => by
    unfold walkString
    by_cases hz : (memRead a s).1 = 0x0000#16
    · simp only [hz, if_true]
      exact read s0 a s hp
    · simp only [hz, if_false]
      exact walkString_induction emit read write fuel (a + 1) s0 _ (write _ _ _ (read s0 a s hp))

/-- What a walk leaves alone: it reads memory and writes to the console only. -/
theorem walkString_frame (emit : Word → List Byte) (fuel : Nat) (a : Word) (s : State) :
    let t := (walkString emit fuel a s).2
    t.regs = s.regs ∧ t.pc = s.pc ∧ t.cond = s.cond ∧ t.runState = s.runState ∧ t.haltCause = s.haltCause ∧
      t.held = s.held ∧ t.shutdownReq = s.shutdownReq ∧
      (∀ b, b ≠ config.kbsrAddr → b ≠ config.kbdrAddr → t.cell b = s.cell b) ∧ (s.mem.wf = true → t.mem.wf = true) :=
  walkString_induction (P := fun s t => t.regs = s.regs ∧ t.pc = s.pc ∧ t.cond = s.cond ∧ t.runState = s.runState ∧
      t.haltCause = s.haltCause ∧ t.held = s.held ∧ t.shutdownReq = s.shutdownReq ∧
      (∀ b, b ≠ config.kbsrAddr → b ≠ config.kbdrAddr → t.cell b = s.cell b) ∧ (s.mem.wf = true → t.mem.wf = true))
    emit
    (fun s a t ⟨h1, h2, h3, h4, h5, h6, h7, h8, h9⟩ => ⟨by simpa using h1, by simpa using h2, by simpa using h3,
      by simpa using h4, by simpa using h5, by simpa using h6, by simpa using h7,
      fun b hb hb' => by rw [memRead_cell t hb hb', h8 b hb hb'], fun hs => memRead_wf a (h9 hs)⟩)
    (fun s bs t ⟨h1, h2, h3, h4, h5, h6, h7, h8, h9⟩ => ⟨h1, h2, h3, h4, h5, h6, h7, h8, h9⟩)
    fuel a s s ⟨rfl, rfl, rfl, rfl, rfl, rfl, rfl, fun _ _ _ => rfl, id⟩

/-- One read of the walk. -/
theorem walkString_succ (emit : Word → List Byte) (fuel : Nat) (a : Word) (s : State) :
    walkString emit (fuel + 1) a s =
      if (memRead a s).1 = 0x0000#16 then (true, (memRead a s).2)
      else walkString emit fuel (a + 1) (writeBytes (emit (memRead a s).1) (memRead a s).2) := rfl

/-- A walk of `m + n` reads is a walk of `m`, which is all of it if it ends, and one of `n` from where that stopped. -/
theorem walkString_add (emit : Word → List Byte) : ∀ (m n : Nat) (a : Word) (s : State),
    walkString emit (m + n) a s =
      if (walkString emit m a s).1 then walkString emit m a s
      else walkString emit n (a + BitVec.ofNat 16 m) (walkString emit m a s).2
  | 0, n, a, s => by simp [walkString]
  | m + 1, n, a, s => by
    rw [Nat.add_right_comm, walkString_succ, walkString_succ]
    by_cases hz : (memRead a s).1 = 0x0000#16
    · simp [hz]
    · simp only [hz, if_false]
      rw [walkString_add emit m n]
      have e : a + 1 + BitVec.ofNat 16 m = a + BitVec.ofNat 16 (m + 1) := by
        apply BitVec.eq_of_toNat_eq
        simp
        omega
      rw [e]

/-- A walk that ends has read a zero cell, and leaves it zero. -/
theorem walkString_ended (emit : Word → List Byte) : ∀ (fuel : Nat) (a : Word) (s : State),
    (walkString emit fuel a s).1 = true → ∃ b, (walkString emit fuel a s).2.cell b = 0x0000#16
  | 0, _, _, h => by simp [walkString] at h
  | fuel + 1, a, s, h => by
    unfold walkString at h ⊢
    by_cases hz : (memRead a s).1 = 0x0000#16
    · simp only [hz, if_true]
      exact ⟨a, by rw [← memRead_value]; exact hz⟩
    · simp only [hz, if_false] at h ⊢
      exact walkString_ended emit fuel (a + 1) _ h

/-- A walk that does not end has met no zero cell, the keyboard's apart. -/
theorem walkString_not_ended (emit : Word → List Byte) : ∀ (fuel : Nat) (a : Word) (s : State),
    (walkString emit fuel a s).1 = false → ∀ k, k < fuel → a + BitVec.ofNat 16 k ≠ config.kbsrAddr →
      a + BitVec.ofNat 16 k ≠ config.kbdrAddr → s.cell (a + BitVec.ofNat 16 k) ≠ 0x0000#16
  | 0, _, _, _, _, hk, _, _ => by omega
  | fuel + 1, a, s, h, k, hk, h1, h2 => by
    unfold walkString at h
    by_cases hz : (memRead a s).1 = 0x0000#16
    · simp [hz] at h
    · simp only [hz, if_false] at h
      cases k with
      | zero =>
        simp only [BitVec.add_zero] at h1 ⊢
        rw [memRead_plain s h1] at hz
        exact hz
      | succ k =>
        have e : a + BitVec.ofNat 16 (k + 1) = a + 1 + BitVec.ofNat 16 k := by
          apply BitVec.eq_of_toNat_eq
          simp
          omega
        rw [e] at h1 h2 ⊢
        have := walkString_not_ended emit fuel (a + 1) _ h k (by omega) h1 h2
        rwa [writeBytes_cell, memRead_cell s h1 h2] at this

/-- A walk that does not pass the keyboard register is plain: only the output can change. -/
theorem walkString_plain (emit : Word → List Byte) : ∀ (fuel : Nat) (a : Word) (s : State),
    (∀ k, k < fuel → a + BitVec.ofNat 16 k ≠ config.kbsrAddr) →
      ∃ out, (walkString emit fuel a s).2 = writeBytes out s
  | 0, _, s, _ => ⟨[], by simp [walkString, writeBytes]⟩
  | fuel + 1, a, s, h => by
    have ha : a ≠ config.kbsrAddr := by simpa using h 0 (by omega)
    unfold walkString
    rw [memRead_plain s ha]
    by_cases hz : s.cell a = 0x0000#16
    · simp only [hz, if_true]
      exact ⟨[], by simp [writeBytes]⟩
    · simp only [hz, if_false]
      obtain ⟨out, ho⟩ := walkString_plain emit fuel (a + 1) (writeBytes (emit (s.cell a)) s) (fun k hk => by
        have e : a + 1 + BitVec.ofNat 16 k = a + BitVec.ofNat 16 (k + 1) := by
          apply BitVec.eq_of_toNat_eq
          simp
          omega
        rw [e]
        exact h (k + 1) (by omega))
      exact ⟨emit (s.cell a) ++ out, by rw [ho]; simp [writeBytes]⟩

/-- How many reads lie between address `a` and the keyboard register, going upward with wrap. -/
def toKeyboard (a : Word) : Nat := (config.kbsrAddr - a).toNat

theorem toKeyboard_lt (a : Word) : toKeyboard a < 65536 := (config.kbsrAddr - a).isLt

theorem add_toKeyboard (a : Word) : a + BitVec.ofNat 16 (toKeyboard a) = config.kbsrAddr := by
  unfold toKeyboard
  generalize config.kbsrAddr = k
  bv_omega

/-- A lap passes the keyboard register once. -/
theorem ne_keyboard {a : Word} {k : Nat} (hk : k < 65536) (h : k ≠ toKeyboard a) :
    a + BitVec.ofNat 16 k ≠ config.kbsrAddr := by
  unfold toKeyboard at h
  generalize config.kbsrAddr = q at h ⊢
  bv_omega

theorem add_ofNat_add (a : Word) (m k : Nat) : a + BitVec.ofNat 16 m + BitVec.ofNat 16 k = a + BitVec.ofNat 16 (m + k) := by
  apply BitVec.eq_of_toNat_eq
  simp
  omega

/-- After the keyboard register the rest of a lap does not meet it again. -/
theorem ne_keyboard_after {a : Word} {k : Nat} (hk : k < 65535 - toKeyboard a) :
    config.kbsrAddr + 1 + BitVec.ofNat 16 k ≠ config.kbsrAddr := by
  have := toKeyboard_lt a
  have e := add_ofNat_add (a + BitVec.ofNat 16 (toKeyboard a)) 1 k
  rw [add_toKeyboard, show BitVec.ofNat 16 1 = (1 : Word) from rfl] at e
  rw [e]
  have e' := add_ofNat_add a (toKeyboard a) (1 + k)
  rw [add_toKeyboard] at e'
  rw [e']
  exact ne_keyboard (by omega) (by omega)

/-- A lap is a walk to the keyboard register, the read of it, and a walk of the rest. -/
theorem walkString_lap (emit : Word → List Byte) {n : Nat} (hn : n = 65536) (a : Word) (s : State) :
    walkString emit n a s =
      if (walkString emit (toKeyboard a) a s).1 then walkString emit (toKeyboard a) a s
      else
        let u := (walkString emit (toKeyboard a) a s).2
        let r := memRead config.kbsrAddr u
        if r.1 = 0x0000#16 then (true, r.2)
        else walkString emit (65535 - toKeyboard a) (config.kbsrAddr + 1) (writeBytes (emit r.1) r.2) := by
  have hk := toKeyboard_lt a
  have e : n = toKeyboard a + (65535 - toKeyboard a + 1) := by omega
  rw [e, walkString_add emit (toKeyboard a) (65535 - toKeyboard a + 1), add_toKeyboard, walkString_succ]

/-- A walk over nonzero cells that does not pass the keyboard register does not end. -/
theorem walkString_nonzero (emit : Word → List Byte) : ∀ (fuel : Nat) (a : Word) (s : State),
    (∀ k, k < fuel → a + BitVec.ofNat 16 k ≠ config.kbsrAddr ∧ s.cell (a + BitVec.ofNat 16 k) ≠ 0x0000#16) →
      (walkString emit fuel a s).1 = false
  | 0, _, _, _ => rfl
  | fuel + 1, a, s, h => by
    have h0 := h 0 (by omega)
    simp only [BitVec.add_zero] at h0
    rw [walkString_succ, memRead_plain s h0.1, if_neg h0.2]
    refine walkString_nonzero emit fuel (a + 1) _ (fun k hk => ?_)
    have e : a + 1 + BitVec.ofNat 16 k = a + BitVec.ofNat 16 (k + 1) := by
      apply BitVec.eq_of_toNat_eq
      simp
      omega
    rw [e]
    exact h (k + 1) (by omega)

/-- A read of the keyboard register by a poll that answers: the byte, in the answer and in the cell, is taken. -/
theorem memRead_keyboard_ready {s : State} {c : Byte} {rest : List Byte} (hs : s.mem.wf = true)
    (hin : s.conIn = c :: rest) (hp : s.pollReady = true) :
    (memRead config.kbsrAddr s).1 = zext c ∧ (memRead config.kbsrAddr s).2.conIn = rest ∧
      (memRead config.kbsrAddr s).2.pollDraws = s.pollDraws.tail := by
  have hpoll : consolePoll config s = (some c, { s.usePoll with conIn := rest }) := by
    obtain ⟨-, h | h | h⟩ | ⟨b, rest', -, h, -, h'⟩ := consolePoll_cases config s
    · cases h
    · rw [hin] at h
      cases h
    · rw [hp] at h
      cases h
    · rw [hin] at h
      cases h
      exact h'
  have hl : (memRead config.kbsrAddr s).2 =
      ({ s.usePoll with conIn := rest }.setCell config.kbsrAddr 0x8000#16).setCell config.kbdrAddr (zext c) := by
    simp only [memRead, memReadIn, if_true, kbdLatchIn, hpoll]
  refine ⟨?_, by rw [hl]; rfl, by rw [hl]; rfl⟩
  rw [memRead_value, hl]
  exact setCell_cell_same _ _ (setCell_wf _ _ hs)

theorem zext_ne_zero {c : Byte} (h : c ≠ 0x00#8) : zext c ≠ 0x0000#16 := by
  intro e
  apply h
  have := congrArg BitVec.toNat e
  simp only [zext, BitVec.toNat_setWidth] at this
  have := c.isLt
  apply BitVec.eq_of_toNat_eq
  simp at *
  omega

/-- A lap that does not end has met no zero cell anywhere, has taken one nonzero byte, and leaves every cell nonzero. -/
theorem walkString_lap_not_ended {emit : Word → List Byte} {n : Nat} (hn : n = 65536) {a : Word} {s : State}
    (hs : s.mem.wf = true) (h : (walkString emit n a s).1 = false) :
    let t := (walkString emit n a s).2
    (∀ b, t.cell b ≠ 0x0000#16) ∧ ∃ c, c ≠ 0x00#8 ∧ s.conIn = c :: t.conIn ∧ t.pollDraws = s.pollDraws.tail := by
  have hcells : ∀ b, b ≠ config.kbsrAddr → s.cell b ≠ 0x0000#16 := by
    intro b hb
    have e : a + BitVec.ofNat 16 (b - a).toNat = b := by
      rw [BitVec.ofNat_toNat, BitVec.setWidth_eq, BitVec.add_comm, BitVec.sub_add_cancel]
    have := walkString_not_ended emit n a s h (b - a).toNat (hn ▸ (b - a).isLt)
    rw [e] at this
    exact this hb hb
  obtain ⟨-, -, -, -, -, -, -, hframe, -⟩ := walkString_frame emit n a s
  have hlap := walkString_lap emit hn a s
  by_cases h1 : (walkString emit (toKeyboard a) a s).1 = true
  · rw [if_pos h1] at hlap
    rw [hlap, h1] at h
    cases h
  rw [if_neg h1] at hlap
  obtain ⟨out, ho⟩ := walkString_plain emit (toKeyboard a) a s
    (fun k hk => ne_keyboard (Nat.lt_trans hk (toKeyboard_lt a)) (by omega))
  rw [ho] at hlap
  by_cases hz : (memRead config.kbsrAddr (writeBytes out s)).1 = 0x0000#16
  · simp only [hz, if_true] at hlap
    rw [hlap] at h
    cases h
  simp only [hz, if_false] at hlap
  obtain ⟨h0, -⟩ | ⟨c, rest, hin, hv, hrest⟩ := memRead_keyboard (s := writeBytes out s) hs
  · exact absurd h0 hz
  obtain ⟨out', ho'⟩ := walkString_plain emit (65535 - toKeyboard a) (config.kbsrAddr + 1)
    (writeBytes (emit (memRead config.kbsrAddr (writeBytes out s)).1) (memRead config.kbsrAddr (writeBytes out s)).2)
    (fun k hk => ne_keyboard_after hk)
  have ht : (walkString emit n a s).2 = writeBytes out' (writeBytes (emit (zext c))
      (memRead config.kbsrAddr (writeBytes out s)).2) := by rw [hlap, ho', hv]
  refine ⟨fun b => ?_, c, fun hc => hz (by rw [hv, hc]; rfl), ?_, ?_⟩
  · by_cases hb : b = config.kbsrAddr
    · rw [hb, ht, writeBytes_cell, writeBytes_cell, ← memRead_value]
      exact hz
    · rw [hframe b hb hb]
      exact hcells b hb
  · rw [ht, writeBytes_conIn, writeBytes_conIn, hrest]
    exact hin
  · rw [ht, writeBytes_pollDraws, writeBytes_pollDraws]
    exact memRead_keyboard_draws (writeBytes out s)

/-- Where every cell but the keyboard's is nonzero and the poll answers with a nonzero byte, a lap does not end. -/
theorem walkString_lap_full (emit : Word → List Byte) {n : Nat} (hn : n = 65536) (a : Word) {s : State} {c : Byte}
    {rest : List Byte} (hs : s.mem.wf = true) (hfull : ∀ b, b ≠ config.kbsrAddr → s.cell b ≠ 0x0000#16)
    (hc : c ≠ 0x00#8) (hin : s.conIn = c :: rest) (hp : s.pollReady = true) : (walkString emit n a s).1 = false := by
  have h1 := walkString_nonzero emit (toKeyboard a) a s (fun k hk => by
    have hne := ne_keyboard (a := a) (Nat.lt_trans hk (toKeyboard_lt a)) (by omega)
    exact ⟨hne, hfull _ hne⟩)
  obtain ⟨out, ho⟩ := walkString_plain emit (toKeyboard a) a s
    (fun k hk => ne_keyboard (Nat.lt_trans hk (toKeyboard_lt a)) (by omega))
  have hr := memRead_keyboard_ready (s := writeBytes out s) hs hin hp
  have hz : (memRead config.kbsrAddr (writeBytes out s)).1 ≠ 0x0000#16 := by
    rw [hr.1]
    exact zext_ne_zero hc
  rw [walkString_lap emit hn a s, h1, ho, if_neg (by decide)]
  simp only [hz, if_false]
  refine walkString_nonzero emit _ _ _ (fun k hk => ⟨ne_keyboard_after hk, ?_⟩)
  rw [writeBytes_cell, memRead_cell _ (ne_keyboard_after hk) (ne_keyboard_after hk)]
  exact hfull _ (ne_keyboard_after hk)

/-- A lap ends at a zero cell, or leaves the core inside the routine (R85, R143). -/
theorem putString_cases (routine : Held) (emit : Word → List Byte) (s : State) :
    ((walkString emit lapReads (s.reg .r0) s).1 = true ∧
        putString routine emit s = (walkString emit lapReads (s.reg .r0) s).2) ∨
      ((walkString emit lapReads (s.reg .r0) s).1 = false ∧
        putString routine emit s = { (walkString emit lapReads (s.reg .r0) s).2 with held := routine }) := by
  unfold putString
  cases h : (walkString emit lapReads (s.reg .r0) s).1
  · exact .inr ⟨rfl, by simp [h]⟩
  · exact .inl ⟨rfl, by simp [h]⟩

/-- A property that every read, every output and the entry of the held state keep is kept by a lap. -/
theorem putString_induction {P : State → State → Prop} (routine : Held) (emit : Word → List Byte) {s0 s : State}
    (read : ∀ s a t, P s t → P s (memRead a t).2) (write : ∀ s bs t, P s t → P s (writeBytes bs t))
    (hold : ∀ s t, P s t → P s { t with held := routine }) (h : P s0 s) : P s0 (putString routine emit s) := by
  have hw := walkString_induction emit read write lapReads (s.reg .r0) s0 s h
  obtain ⟨-, e⟩ | ⟨-, e⟩ := putString_cases routine emit s
  · rw [e]
    exact hw
  · rw [e]
    exact hold _ _ hw

/-- What a lap leaves alone, and what it does to the two streams. -/
theorem putString_frame (routine : Held) (emit : Word → List Byte) (s : State) :
    let t := putString routine emit s
    t.regs = s.regs ∧ t.pc = s.pc ∧ t.cond = s.cond ∧ t.runState = s.runState ∧ t.haltCause = s.haltCause ∧
      (t.held = s.held ∨ t.held = routine) ∧ t.shutdownReq = s.shutdownReq ∧
      (∀ b, b ≠ config.kbsrAddr → b ≠ config.kbdrAddr → t.cell b = s.cell b) ∧
      (s.mem.wf = true → t.mem.wf = true) ∧ (∃ out, t.conOut = s.conOut ++ out) ∧
      ∃ taken, s.conIn = taken ++ t.conIn := by
  have hs := putString_induction (P := fun s t => (∃ out, t.conOut = s.conOut ++ out) ∧
      ∃ taken, s.conIn = taken ++ t.conIn) routine emit (s0 := s) (s := s)
    (fun s a t ⟨⟨out, ho⟩, ⟨taken, hi⟩⟩ => ⟨⟨out, by simpa using ho⟩, by
      obtain h | ⟨c, h⟩ := memRead_conIn a t
      · exact ⟨taken, by rw [h, hi]⟩
      · exact ⟨taken ++ [c], by rw [hi, h, List.append_assoc, List.singleton_append]⟩⟩)
    (fun s bs t ⟨⟨out, ho⟩, hi⟩ => ⟨⟨out ++ bs, by rw [writeBytes_conOut, ho, List.append_assoc]⟩, hi⟩)
    (fun s t h => h) ⟨⟨[], (List.append_nil _).symm⟩, ⟨[], rfl⟩⟩
  obtain ⟨h1, h2, h3, h4, h5, h6, h7, h8, h9⟩ := walkString_frame emit lapReads (s.reg .r0) s
  refine ⟨?_, ?_, ?_, ?_, ?_, ?_, ?_, ?_, ?_, hs.1, hs.2⟩ <;>
    obtain ⟨-, h⟩ | ⟨-, h⟩ := putString_cases routine emit s <;> rw [h] <;> first | assumption | skip
  · exact .inl h6
  · exact .inr rfl

/-- When a lap ends the routine and when it does not, and what it has then met. -/
theorem putString_held {routine : Held} (emit : Word → List Byte) {s : State} (hs : s.mem.wf = true)
    (hh : s.held = .none) :
    let t := putString routine emit s
    (t.held = .none ∧ ∃ b, t.cell b = 0x0000#16) ∨
      (t.held = routine ∧ (∀ b, t.cell b ≠ 0x0000#16) ∧ ∃ c, c ≠ 0x00#8 ∧ s.conIn = c :: t.conIn) := by
  obtain ⟨h, e⟩ | ⟨h, e⟩ := putString_cases routine emit s <;> rw [e]
  · exact .inl ⟨(walkString_frame emit lapReads (s.reg .r0) s).2.2.2.2.2.1.trans hh, walkString_ended emit _ _ _ h⟩
  · obtain ⟨hcells, c, hc, hin, -⟩ := walkString_lap_not_ended rfl hs h
    exact .inr ⟨rfl, hcells, c, hc, hin⟩

/-- A lap over nonzero cells that takes a nonzero byte leaves the core inside the routine. -/
theorem putString_full (routine : Held) (emit : Word → List Byte) {s : State} {c : Byte} {rest : List Byte}
    (hs : s.mem.wf = true) (hfull : ∀ b, b ≠ config.kbsrAddr → s.cell b ≠ 0x0000#16) (hc : c ≠ 0x00#8)
    (hin : s.conIn = c :: rest) (hp : s.pollReady = true) :
    let t := putString routine emit s
    t.held = routine ∧ t.conIn = rest ∧ t.pollDraws = s.pollDraws.tail ∧ ∀ b, t.cell b ≠ 0x0000#16 := by
  have hw := walkString_lap_full emit (n := lapReads) rfl (s.reg .r0) hs hfull hc hin hp
  obtain ⟨h, -⟩ | ⟨h, e⟩ := putString_cases routine emit s
  · rw [hw] at h
    cases h
  · obtain ⟨hcells, c', -, hin', hd⟩ := walkString_lap_not_ended (n := lapReads) rfl hs h
    rw [e]
    rw [hin] at hin'
    exact ⟨rfl, (List.cons.inj hin').2.symm, hd, hcells⟩

end Sys2Proof.Machine.Laws
end

