-- ==== Sys2Proof/Laws/Step.lean ====
section
/-! SUPPORT. What one step and one evaluation of the input wait can do. -/

namespace Sys2Proof.Machine.Laws

@[simp] theorem zext_toNat (b : Byte) : (zext b).toNat = b.toNat := by
  have := b.isLt
  simp [zext]
  omega

/-- Evaluating the input wait: the request wins, a byte is taken, or the core waits (R89, R177). -/
theorem requestChar_cases (w : Held) (resume : Byte → State → State) (s : State) :
    (s.shutdownReq = true ∧ requestChar w resume s = halt .shutdown { s with held := .none }) ∨
      (∃ c rest, s.shutdownReq = false ∧ s.conIn = c :: rest ∧
        requestChar w resume s = resume c { s with held := .none, conIn := rest }) ∨
      (s.shutdownReq = false ∧ s.conIn = [] ∧ requestChar w resume s = { s with held := w }) := by
  unfold requestChar
  split
  · rename_i h
    exact .inl ⟨h, rfl⟩
  · rename_i h
    rw [Bool.not_eq_true] at h
    split
    · rename_i c rest hin
      exact .inr (.inl ⟨c, rest, h, hin, rfl⟩)
    · rename_i hin
      exact .inr (.inr ⟨h, hin, rfl⟩)

/-- What holds after the request, after a byte and after the entry of the wait holds after the evaluation of it. -/
theorem requestChar_induction {P : State → Prop} {w : Held} {resume : Byte → State → State} {s : State}
    (request : P (halt .shutdown { s with held := .none }))
    (byte : ∀ c rest, s.conIn = c :: rest → P (resume c { s with held := .none, conIn := rest }))
    (waits : s.conIn = [] → P { s with held := w }) : P (requestChar w resume s) := by
  obtain ⟨-, h⟩ | ⟨c, rest, -, hin, h⟩ | ⟨-, hin, h⟩ := requestChar_cases w resume s <;> rw [h]
  · exact request
  · exact byte c rest hin
  · exact waits hin

/-- What the fetch does: MemRead at the pc, then the increment (R81, R82). -/
theorem fetch_eq (s : State) : fetch s = ((memRead s.pc s).1, (memRead s.pc s).2.setPc (s.pc + 1)) := rfl

/-- A halted core, a core inside a routine, a shutdown, or one instruction: everything a step can be (R84, R85). -/
theorem step_cases {s t : State} (h : step s = .next t) :
    (s.runState = .halted ∧ t = s) ∨
      (s.runState = .running ∧ s.held = .getc ∧ t = awaitGetc s) ∨
      (s.runState = .running ∧ s.held = .inEcho ∧ t = awaitIn s) ∨
      (s.runState = .running ∧ s.held = .puts ∧ t = lapPuts { s with held := .none }) ∨
      (s.runState = .running ∧ s.held = .putsp ∧ t = lapPutsp { s with held := .none }) ∨
      (s.runState = .running ∧ s.held = .none ∧ s.shutdownReq = true ∧ t = halt .shutdown s) ∨
      (s.runState = .running ∧ s.held = .none ∧ s.shutdownReq = false ∧
        exec (decode (fetch s).1) (fetch s).2 = .next t) := by
  unfold step cycle at h
  split at h
  · rename_i hr
    exact .inl ⟨hr, by simpa using h.symm⟩
  · rename_i hr
    split at h <;> rename_i hw
    · unfold beginStep at h
      split at h
      · rename_i hs
        exact .inr (.inr (.inr (.inr (.inr (.inl ⟨hr, hw, hs, by simpa using h.symm⟩)))))
      · rename_i hs
        exact .inr (.inr (.inr (.inr (.inr (.inr ⟨hr, hw, by simpa using hs, h⟩)))))
    · exact .inr (.inl ⟨hr, hw, by simpa using h.symm⟩)
    · exact .inr (.inr (.inl ⟨hr, hw, by simpa using h.symm⟩))
    · exact .inr (.inr (.inr (.inl ⟨hr, hw, by simpa using h.symm⟩)))
    · exact .inr (.inr (.inr (.inr (.inl ⟨hr, hw, by simpa using h.symm⟩))))

end Sys2Proof.Machine.Laws
end

