-- ==== Sys2Proof/Tests/Slice0.lean ====
section
/-! SUPPORT. Tests. Expected results are the vectors V1 to V80 and the images P1 and P9 of 95_test_vectors.md, and
words written out bit by bit from the encodings of 30_encoding.md; the witnesses show that the hypotheses of the
statements can be met. -/

namespace Sys2Proof.Tests

open Sys2Proof Sys2Proof.Machine

/-! ## Builders -/

/-- Reset, with registers, cells, flags and pc as given. -/
def start (regs : List (Reg × Word)) (cells : List (Word × Word) := []) (cond : BitVec 3 := 0b000#3)
    (pc : Word := 0x3000#16) : State :=
  let s := regs.foldl (fun s p => s.setReg p.1 p.2) State.reset
  ((cells.foldl (fun s p => s.setCell p.1 p.2) s).setCond cond).setPc pc

/-- One step that executes the word `w`. -/
def runWord (w : Word) (s : State) : Result := step (s.withFetchWord 16 w.toNat)

/-- The step gives a next state of which `p` holds. -/
def gives (p : State → Bool) : Result → Bool
  | .next t => p t
  | .fault _ => false
  | .refused _ => false

/-- Register, flags, pc. -/
def shows (r : Reg) (v : Word) (cond : BitVec 3) (pc : Word) (t : State) : Bool :=
  t.reg r == v && t.cond == cond && t.pc == pc

/-- Reset with input bytes and settled poll answers. -/
def console (input : List Byte) (answers : List Bool) : State :=
  { State.reset with conIn := input, pollDraws := answers }

/-- The default parameters with a data register address of its own (D6). -/
def distinct : Config := { config with kbdrAddr := 0xFE02#16 }

/-! ## WellFormed: the ill-formed terms are refused, their neighbours are not -/

theorem test_wellFormed_ret_refused : Instr.ret.wellFormed = false := by decide
theorem test_wellFormed_jmp_r7 : (Instr.jmp .r7).wellFormed = true := by decide
theorem test_wellFormed_trap_routine_vectors_refused :
    ([0x20#8, 0x21#8, 0x22#8, 0x23#8, 0x24#8, 0x25#8].all fun v => !(Instr.trap v).wellFormed) = true := by decide
theorem test_wellFormed_trap_other_vectors :
    ([0x00#8, 0x1F#8, 0x26#8, 0xFF#8].all fun v => (Instr.trap v).wellFormed) = true := by decide

/-! ## Decode: every constructor, from a word of R66, R67, R70 and R71 (V numbers where the word is a vector's) -/

theorem test_decode_br : decode 0b0000_001_111111101#16 = .br 0b001#3 0x1FD#9 := by decide
theorem test_decode_addReg : decode 0b0001_000_001_0_00_010#16 = .addReg .r0 .r1 .r2 := by decide
theorem test_decode_addImm : decode 0b0001_000_001_1_11111#16 = .addImm .r0 .r1 0b11111#5 := by decide
theorem test_decode_ld : decode 0b0010_001_000000101#16 = .ld .r1 0x005#9 := by decide
theorem test_decode_st : decode 0b0011_101_111111111#16 = .st .r5 0x1FF#9 := by decide
theorem test_decode_jsr : decode 0b0100_1_10000000000#16 = .jsr 0x400#11 := by decide
theorem test_decode_jsrr : decode 0b0100_0_00_010_000000#16 = .jsrr .r2 := by decide
theorem test_decode_andReg : decode 0b0101_110_001_0_00_010#16 = .andReg .r6 .r1 .r2 := by decide
theorem test_decode_andImm : decode 0b0101_000_001_1_10000#16 = .andImm .r0 .r1 0b10000#5 := by decide
theorem test_decode_ldr : decode 0b0110_001_010_111111#16 = .ldr .r1 .r2 0b111111#6 := by decide
theorem test_decode_str : decode 0b0111_001_010_000011#16 = .str .r1 .r2 0b000011#6 := by decide
theorem test_decode_rti : decode 0b1000_111111111111#16 = .rti := by decide
theorem test_decode_not : decode 0b1001_011_100_111111#16 = .not .r3 .r4 := by decide
theorem test_decode_ldi : decode 0b1010_000_111111111#16 = .ldi .r0 0x1FF#9 := by decide
theorem test_decode_sti : decode 0b1011_001_000000101#16 = .sti .r1 0x005#9 := by decide
theorem test_decode_jmp : decode 0b1100_111_010_000000#16 = .jmp .r2 := by decide
theorem test_decode_res : decode 0b1101_101010111100#16 = .res := by decide
theorem test_decode_lea : decode 0b1110_111_000000010#16 = .lea .r7 0x002#9 := by decide
theorem test_decode_trapGetc : decode 0b1111_0000_00100000#16 = .trapGetc := by decide
theorem test_decode_trapOut : decode 0b1111_0000_00100001#16 = .trapOut := by decide
theorem test_decode_trapPuts : decode 0b1111_0000_00100010#16 = .trapPuts := by decide
theorem test_decode_trapIn : decode 0b1111_0000_00100011#16 = .trapIn := by decide
theorem test_decode_trapPutsp : decode 0b1111_0000_00100100#16 = .trapPutsp := by decide
theorem test_decode_trapHalt : decode 0b1111_1111_00100101#16 = .trapHalt := by decide
theorem test_decode_trap : decode 0b1111_0000_11111111#16 = .trap 0xFF#8 := by decide
/-- R72: the alias row RET is skipped. -/
theorem test_decode_ret_is_jmp_r7 : decode 0b1100_000_111_000000#16 = .jmp .r7 := by decide
theorem test_encode_not_writes_ones : encode (.not .r0 .r1) = 0x907F#16 := by decide
theorem test_tableWord_decodes : decodeTableWord 16 0x107F = some (.addImm .r0 .r1 0b11111#5) := by decide
theorem test_tableWord_too_long : decodeTableWord 32 0x107F = none := by decide

/-! ## One step: operate -/

/-- V2. -/
theorem test_add_reg_overflow : gives (shows .r1 0x8000#16 0b100#3 0x3001#16)
    (runWord 0x1241#16 (start [(.r1, 0x4000#16)])) = true := by decide
/-- V3. -/
theorem test_add_reg_carry_discarded : gives (shows .r0 0x0000#16 0b010#3 0x3001#16)
    (runWord 0x1042#16 (start [(.r1, 0xFFFF#16), (.r2, 0x0001#16)])) = true := by decide
/-- S5. -/
theorem test_add_imm_source_example : gives (shows .r0 0x0004#16 0b001#3 0x3001#16)
    (runWord 0x107F#16 (start [(.r1, 0x0005#16)])) = true := by decide
/-- V8. -/
theorem test_add_imm_most_negative : gives (shows .r0 0x0000#16 0b010#3 0x3001#16)
    (runWord 0x1070#16 (start [(.r1, 0x0010#16)])) = true := by decide
/-- V10. -/
theorem test_and_reg : gives (shows .r0 0x0F00#16 0b001#3 0x3001#16)
    (runWord 0x5042#16 (start [(.r1, 0xFF0F#16), (.r2, 0x0FF0#16)])) = true := by decide
/-- V14. -/
theorem test_and_imm_extends : gives (shows .r0 0xABC0#16 0b100#3 0x3001#16)
    (runWord 0x5070#16 (start [(.r1, 0xABCD#16)])) = true := by decide
/-- V18: the ignored bits are zeros. -/
theorem test_not_ignored_bits : gives (shows .r0 0xFF00#16 0b100#3 0x3001#16)
    (runWord 0x9040#16 (start [(.r1, 0x00FF#16)])) = true := by decide
/-- V19. -/
theorem test_not_same_register : gives (shows .r1 0xFFFA#16 0b100#3 0x3001#16)
    (runWord 0x927F#16 (start [(.r1, 0x0005#16)])) = true := by decide

/-! ## One step: data movement -/

/-- V21: it reads its own cell. -/
theorem test_ld_own_cell : gives (shows .r0 0x21FF#16 0b001#3 0x3001#16) (runWord 0x21FF#16 (start [])) = true := by
  decide
/-- V23. -/
theorem test_ld_most_negative : gives (shows .r0 0x0000#16 0b010#3 0x3001#16)
    (runWord 0x2100#16 (start [(.r0, 0x0005#16)] [(0x2F01#16, 0x0000#16)])) = true := by decide
/-- V24. -/
theorem test_st : gives (fun t => t.cell 0x3002#16 == 0x000F#16 && t.cond == 0b010#3)
    (runWord 0x3001#16 (start [(.r0, 0x000F#16)] [] 0b010#3)) = true := by decide
/-- V25: its own cell is overwritten. -/
theorem test_st_own_cell : gives (fun t => t.cell 0x3000#16 == 0xF025#16 && t.pc == 0x3001#16)
    (runWord 0x31FF#16 (start [(.r0, 0xF025#16)])) = true := by decide
/-- V27: the destination is the base. -/
theorem test_ldr_same_register : gives (shows .r1 0x8000#16 0b100#3 0x3001#16)
    (runWord 0x6240#16 (start [(.r1, 0x4000#16)] [(0x4000#16, 0x8000#16)])) = true := by decide
/-- V28. -/
theorem test_ldr_wraps : gives (shows .r0 0x0007#16 0b001#3 0x3001#16)
    (runWord 0x607F#16 (start [] [(0xFFFF#16, 0x0007#16)])) = true := by decide
/-- V29. -/
theorem test_str : gives (fun t => t.cell 0x4003#16 == 0x1234#16)
    (runWord 0x7283#16 (start [(.r1, 0x1234#16), (.r2, 0x4000#16)])) = true := by decide
/-- V30. -/
theorem test_str_wraps : gives (fun t => t.cell 0x000F#16 == 0xFFF0#16)
    (runWord 0x749F#16 (start [(.r2, 0xFFF0#16)])) = true := by decide
/-- V31. -/
theorem test_ldi : gives (shows .r0 0x1234#16 0b001#3 0x3001#16)
    (runWord 0xA001#16 (start [] [(0x3002#16, 0x4000#16), (0x4000#16, 0x1234#16)])) = true := by decide
/-- P7, its first row: the pointer is the keyboard register and a character is pending. -/
theorem test_ldi_keyboard : gives (fun t => shows .r0 0x0041#16 0b001#3 0x3001#16 t && t.cell 0xFE00#16 == 0x0041#16 &&
    t.conIn.isEmpty) (runWord 0xA002#16 ((console [0x41#8] [true]).setCell 0x3003#16 0xFE00#16)) = true := by decide
/-- V33. -/
theorem test_sti : gives (fun t => t.cell 0x4000#16 == 0xFFFB#16 && t.cond == 0b001#3)
    (runWord 0xB205#16 (start [(.r1, 0xFFFB#16)] [(0x3008#16, 0x4000#16)] 0b001#3 0x3002#16)) = true := by decide
/-- V34: the pointer cell overwrites itself. -/
theorem test_sti_pointer_cell : gives (fun t => t.cell 0x3001#16 == 0x0000#16)
    (runWord 0xB000#16 (start [] [(0x3001#16, 0x3001#16)])) = true := by decide
/-- V36. -/
theorem test_lea_sets_flags : gives (shows .r0 0x8000#16 0b100#3 0x8001#16)
    (runWord 0xE1FF#16 (start [] [] 0b000#3 0x8000#16)) = true := by decide
/-- V37. -/
theorem test_lea_wraps : gives (shows .r0 0x0000#16 0b010#3 0x0000#16)
    (runWord 0xE000#16 (start [(.r0, 0x0001#16)] [] 0b000#3 0xFFFF#16)) = true := by decide

/-! ## One step: control -/

/-- V38 and V44. -/
theorem test_br_taken : (gives (fun t => t.pc == 0x3003#16) (runWord 0x03FD#16 (start [] [] 0b001#3 0x3005#16)) &&
    gives (fun t => t.pc == 0xFF11#16) (runWord 0x0900#16 (start [] [] 0b100#3 0x0010#16))) = true := by decide
/-- V40 and V43. -/
theorem test_br_not_taken : (gives (fun t => t.pc == 0x3001#16) (runWord 0x0E01#16 (start [])) &&
    gives (fun t => t.pc == 0x3001#16) (runWord 0x0C05#16 (start [] [] 0b001#3))) = true := by decide
/-- V47: the ignored bits are ones. -/
theorem test_jmp_ignored_bits : gives (fun t => t.pc == 0x0000#16)
    (runWord 0xCE80#16 (start [(.r7, 0x1111#16)])) = true := by decide
/-- V46. -/
theorem test_ret : gives (fun t => t.pc == 0x3002#16) (runWord 0xC1C0#16 (start [(.r7, 0x3002#16)])) = true := by
  decide
/-- R131: RET is JMP R7. -/
theorem test_exec_ret : gives (fun t => t.pc == 0x3002#16) (exec .ret (start [(.r7, 0x3002#16)])) = true := by decide
/-- V48. -/
theorem test_jsr : gives (shows .r7 0x3002#16 0b010#3 0x3004#16)
    (runWord 0x4802#16 (start [] [] 0b010#3 0x3001#16)) = true := by decide
/-- V49. -/
theorem test_jsr_most_negative : gives (shows .r7 0x3001#16 0b000#3 0x2C01#16)
    (runWord 0x4C00#16 (start [])) = true := by decide
/-- V51. -/
theorem test_jsrr : gives (shows .r7 0x3001#16 0b000#3 0x5000#16)
    (runWord 0x4080#16 (start [(.r2, 0x5000#16)])) = true := by decide
/-- V52: the link is written first. -/
theorem test_jsrr_r7 : gives (shows .r7 0x3001#16 0b000#3 0x3001#16)
    (runWord 0x41C0#16 (start [(.r7, 0x6000#16)])) = true := by decide

/-! ## One step: TRAP and the reserved opcodes -/

/-- V53. -/
theorem test_getc : gives (fun t => shows .r0 0x0061#16 0b100#3 0x3001#16 t && t.reg .r7 == 0x1234#16 &&
    t.conIn == [0x62#8] && t.conOut.isEmpty)
    (runWord 0xF020#16 { start [(.r0, 0xFFFF#16), (.r7, 0x1234#16)] [] 0b100#3 with conIn := [0x61#8, 0x62#8] }) =
    true := by decide
/-- V54, in the two steps of assumption 6: the wait, then the request during it. -/
theorem test_getc_waits_then_shutdown : gives (fun t => t.held == .getc && t.runState == .running &&
    gives (fun u => u.haltCause == .shutdown && u.pc == 0x3001#16 && u.reg .r0 == 0xFFFF#16) (step t.raiseShutdown))
    (runWord 0xF020#16 (start [(.r0, 0xFFFF#16)])) = true := by decide
/-- V55. -/
theorem test_out_low_byte : gives (fun t => t.conOut == [0x48#8] && t.reg .r0 == 0x1248#16)
    (runWord 0xF021#16 (start [(.r0, 0x1248#16)])) = true := by decide
/-- V58: a cell whose low byte is zero is no terminator. -/
theorem test_puts_low_bytes : gives (fun t => t.conOut == [0x41#8, 0x00#8])
    (runWord 0xF022#16 (start [(.r0, 0x4000#16)] [(0x4000#16, 0x0141#16), (0x4001#16, 0x4100#16)])) = true := by decide
/-- V59. -/
theorem test_puts_wraps : gives (fun t => t.conOut == [0x41#8, 0x42#8])
    (runWord 0xF022#16 (start [(.r0, 0xFFFF#16)] [(0xFFFF#16, 0x0041#16), (0x0000#16, 0x0042#16)])) = true := by decide
/-- V60. -/
theorem test_in : gives (fun t => shows .r0 0x0079#16 0b010#3 0x3001#16 t && t.conOut.length == 21 &&
    t.conOut.take 5 == [0x45#8, 0x6E#8, 0x74#8, 0x65#8, 0x72#8] && t.conOut.drop 19 == [0x79#8, 0x0A#8])
    (runWord 0xF023#16 { start [] [] 0b010#3 with conIn := [0x79#8] }) = true := by decide
/-- 44_trap.md, IN: the prompt is written before the wait, and a byte that comes later completes the routine. -/
theorem test_in_waits_then_byte : gives (fun t => t.held == .inEcho && t.conOut.length == 19 &&
    gives (fun u => u.held == .none && u.reg .r0 == 0x0079#16 && u.conOut.length == 21 && u.pc == 0x3001#16)
      (step (t.receive 0x79#8))) (runWord 0xF023#16 (start [])) = true := by decide
/-- V61. -/
theorem test_putsp : gives (fun t => t.conOut == [0x48#8, 0x49#8, 0x21#8])
    (runWord 0xF024#16 (start [(.r0, 0x4000#16)] [(0x4000#16, 0x4948#16), (0x4001#16, 0x0021#16)])) = true := by decide
/-- V62: the low byte is written although it is zero. -/
theorem test_putsp_low_byte_zero : gives (fun t => t.conOut == [0x00#8, 0x41#8])
    (runWord 0xF024#16 (start [(.r0, 0x4000#16)] [(0x4000#16, 0x4100#16)])) = true := by decide
/-- R85, R92: a core inside PUTS goes round again without a look at the shutdown request, here to a zero cell. -/
theorem test_puts_goes_round_again : gives (fun t => t.conOut == [0x41#8] && t.held == .none && t.pc == 0x3000#16 &&
    t.runState == .running) (step (State.raiseShutdown { start [(.r0, 0x4000#16)] [(0x4000#16, 0x0041#16)] with
      held := .puts })) = true := by decide
/-- V64: HALT with ignored bits as ones. -/
theorem test_halt : gives (fun t => t.conOut == [0x48#8, 0x41#8, 0x4C#8, 0x54#8, 0x0A#8] && t.runState == .halted &&
    t.haltCause == .haltTrap && t.pc == 0x3003#16) (runWord 0xFF25#16 (start [] [] 0b000#3 0x3002#16)) = true := by
  decide
/-- V65 and V67. -/
theorem test_trap_unknown : (gives (fun t => t.pc == 0x3001#16 && t.reg .r7 == 0x0007#16 && t.runState == .running &&
    t.conOut.isEmpty) (runWord 0xF0FF#16 (start [(.r7, 0x0007#16)])) &&
    gives (fun t => t.pc == 0x3001#16 && t.runState == .running) (runWord 0xF026#16 (start []))) = true := by decide
/-- U3: where `UNKNOWN_TRAP` is fatal the model stops. -/
theorem test_trap_unknown_fatal :
    unknownTrapIn { config with unknownTrap := .fatal } State.reset = .fault .unknownTrap := rfl
/-- V69. -/
theorem test_rti : gives (fun t => t.runState == .halted && t.haltCause == .reservedRti && t.pc == 0x3002#16 &&
    t.conOut.isEmpty) (runWord 0x8FFF#16 (start [] [] 0b000#3 0x3001#16)) = true := by decide
/-- V70. -/
theorem test_res : gives (fun t => t.runState == .halted && t.haltCause == .reservedRes && t.pc == 0x4001#16)
    (runWord 0xDABC#16 (start [] [] 0b000#3 0x4000#16)) = true := by decide

/-! ## The keyboard register, the step, the loader -/

/-- V71 and V72. -/
theorem test_keyboard_shared :
    ((memRead 0xFE00#16 (console [0x41#8] [true])).1 == 0x0041#16 &&
      (memRead 0xFE00#16 ((console [0x41#8] [false]).setCell 0xFE00#16 0x0041#16)).1 == 0x0000#16) = true := by decide
/-- V74, V75 and V76. -/
theorem test_keyboard_distinct :
    (let a := memReadIn distinct 0xFE00#16 (console [0x41#8, 0x42#8] [true, false])
     let b := memReadIn distinct 0xFE02#16 a.2
     let c := memReadIn distinct 0xFE00#16 b.2
     a.1 == 0x8000#16 && b.1 == 0x0041#16 && b.2.pollCount == 1 && c.1 == 0x0000#16 && c.2.cell 0xFE02#16 == 0x0041#16 &&
       c.2.conIn == [0x42#8]) = true := by decide
/-- R90: under the contract "always false" no poll takes a byte. -/
theorem test_keyboard_never :
    (let r := memReadIn { config with kbdPoll := .never } 0xFE00#16 (console [0x41#8] [true])
     r.1 == 0x0000#16 && r.2.conIn == [0x41#8]) = true := by decide
/-- V73 and V77. -/
theorem test_keyboard_write_is_plain :
    (let s := memWrite 0xFE00#16 0x1234#16 (console [] [])
     s.cell 0xFE00#16 == 0x1234#16 && (memRead 0xFE00#16 s).1 == 0x0000#16 &&
       (memRead 0xFE01#16 s).2.pollCount == 0) = true := by decide
/-- V78. -/
theorem test_shutdown_before_fetch : gives (fun t => t.haltCause == .shutdown && t.pc == 0x3005#16)
    (step (start [] [] 0b000#3 0x3005#16).raiseShutdown) = true := by decide
/-- V80. -/
theorem test_halted_is_absorbing :
    let s := (halt .haltTrap (start [(.r0, 0x0001#16)])).raiseShutdown
    step s = .next s := rfl
/-- P9: the pc does not follow the origin; the words are big-endian. -/
theorem test_boot : ((State.boot [0x30#8, 0x02#8, 0xF0#8, 0x25#8]).any fun s =>
    s.pc == 0x3000#16 && s.cell 0x3002#16 == 0xF025#16 && s.cell 0x3000#16 == 0x0000#16) = true := by decide
/-- D13: the store wraps; an odd byte is ignored; one byte is a load fault. -/
theorem test_boot_edges : ((State.boot [0xFF#8, 0xFF#8, 0x00#8, 0x01#8, 0x12#8, 0x34#8, 0x56#8]).any (fun s =>
    s.cell 0xFFFF#16 == 0x0001#16 && s.cell 0x0000#16 == 0x1234#16 && s.cell 0x0001#16 == 0x0000#16) &&
    (State.boot [0x30#8]).isNone) = true := by decide

/-! ## Witnesses: a state and operands that meet the hypotheses of each statement that has any -/

/-- The least, the greatest and a middle width. -/
theorem witness_SignExtensionByTopBit : (1 ≤ 1 ∧ 1 ≤ 16) ∧ (1 ≤ 16 ∧ 16 ≤ 16) ∧ ((1#1).getLsbD (1 - 1) = true) ∧
    ((0x8000#16).getLsbD (16 - 1) = true) ∧ ((0b01111#5).getLsbD (5 - 1) = false) := by decide
theorem witness_EncodeThenDecode : (Instr.addImm .r0 .r1 0b11111#5).wellFormed = true ∧
    (Instr.jmp .r7).wellFormed = true ∧ (Instr.trap 0x26#8).wellFormed = true := by decide
theorem witness_IgnoredBitsChangeNothing :
    0x1042#16 &&& (decode 0x1042#16).readBits = 0x105A#16 &&& (decode 0x1042#16).readBits := by decide
theorem witness_AddRegisterForm : 0x1042#16 &&& 0xF020#16 = 0x1000#16 := by decide
theorem witness_AddImmediateForm : 0x107F#16 &&& 0xF020#16 = 0x1020#16 := by decide
theorem witness_AndRegisterForm : 0x5042#16 &&& 0xF020#16 = 0x5000#16 := by decide
theorem witness_AndImmediateForm : 0x5070#16 &&& 0xF020#16 = 0x5020#16 := by decide
theorem witness_NotComplements : 0x907F#16 &&& 0xF000#16 = 0x9000#16 := by decide
/-- Both clauses: at 0xFE01 after the increment LD #-1 reads KBSR_ADDR, elsewhere it does not. -/
theorem witness_LoadPcRelative : 0x21FF#16 &&& 0xF000#16 = 0x2000#16 ∧
    relTo (start [] [] 0b000#3 0xFE01#16).pc 9 0x21FF#16 = config.kbsrAddr ∧
    relTo (start []).pc 9 0x21FF#16 ≠ config.kbsrAddr := by decide
theorem witness_StorePcRelative : State.reset.mem.wf = true ∧ 0x3001#16 &&& 0xF000#16 = 0x3000#16 := by decide
theorem witness_LoadBasePlusOffset : 0x607F#16 &&& 0xF000#16 = 0x6000#16 ∧
    relTo ((start [(.r1, 0xFE01#16)]).reg (regAt 6 0x607F#16)) 6 0x607F#16 = config.kbsrAddr ∧
    relTo ((start []).reg (regAt 6 0x607F#16)) 6 0x607F#16 ≠ config.kbsrAddr := by decide
theorem witness_StoreBasePlusOffset : State.reset.mem.wf = true ∧ 0x7283#16 &&& 0xF000#16 = 0x7000#16 := by decide
theorem witness_LoadIndirect :
    let s := start [] [(0x3001#16, 0x4000#16), (0x4000#16, 0x1234#16)]
    0xA001#16 &&& 0xF000#16 = 0xA000#16 ∧ relTo s.pc 9 0xA001#16 ≠ config.kbsrAddr ∧
      s.cell (relTo s.pc 9 0xA001#16) ≠ config.kbsrAddr ∧ s.cell (relTo s.pc 9 0xA001#16) = 0x4000#16 := by decide
theorem witness_StoreIndirect :
    let s := start [(.r1, 0xFFFB#16)] [(0x3005#16, 0x4000#16)]
    s.mem.wf = true ∧ 0xB205#16 &&& 0xF000#16 = 0xB000#16 ∧ relTo s.pc 9 0xB205#16 ≠ config.kbsrAddr ∧
      s.cell (relTo s.pc 9 0xB205#16) = 0x4000#16 := by decide
theorem witness_LoadEffectiveAddress : 0xE1FF#16 &&& 0xF000#16 = 0xE000#16 := by decide
/-- Each of the five clauses, with its bit set; the clauses on `cond` exclude each other, and the last agrees. -/
theorem witness_BranchOnFlags : 0x0E01#16 &&& 0xF000#16 = 0x0000#16 ∧ 0x0001#16 &&& 0xF000#16 = 0x0000#16 ∧
    (start [] [] 0b100#3).cond = config.flNeg ∧ (start [] [] 0b010#3).cond = config.flZro ∧
    (start [] [] 0b001#3).cond = config.flPos ∧ State.reset.cond = 0b000#3 ∧ fieldAt 9 3 0x0001#16 = 0 ∧
    (0x0E01#16).getLsbD 11 = true ∧ (0x0E01#16).getLsbD 10 = true ∧ (0x0E01#16).getLsbD 9 = true ∧
    config.flNeg ≠ config.flZro ∧ config.flNeg ≠ config.flPos ∧ config.flZro ≠ config.flPos ∧
    config.flNeg ≠ 0b000#3 ∧ config.flZro ≠ 0b000#3 ∧ config.flPos ≠ 0b000#3 := by decide
theorem witness_JumpThroughRegister : 0xCE80#16 &&& 0xF000#16 = 0xC000#16 ∧ 0xC1C0#16 &&& 0xF000#16 = 0xC000#16 := by
  decide
theorem witness_CallPcRelative : 0x4802#16 &&& 0xF800#16 = 0x4800#16 := by decide
theorem witness_CallThroughRegister : 0x4080#16 &&& 0xF800#16 = 0x4000#16 ∧ 0x41C0#16 &&& 0xF800#16 = 0x4000#16 ∧
    regAt 6 0x4080#16 ≠ .r7 ∧ regAt 6 0x41C0#16 = .r7 := by decide
theorem witness_ReservedOpcodesTakeFault : 0x8FFF#16 &&& 0xF000#16 = 0x8000#16 ∧ 0xDABC#16 &&& 0xF000#16 = 0xD000#16 := by
  decide
theorem witness_GetcTakesByte :
    let s := console [0x61#8, 0x62#8] []
    0xF020#16 &&& 0xF0FF#16 = 0xF020#16 ∧ s.shutdownReq = false ∧ s.held = .none ∧ s.conIn = 0x61#8 :: [0x62#8] := by decide
theorem witness_InTakesByte :
    let s := console [0x79#8] []
    0xF023#16 &&& 0xF0FF#16 = 0xF023#16 ∧ s.shutdownReq = false ∧ s.held = .none ∧ s.conIn = 0x79#8 :: [] := by decide
theorem witness_OutWritesLowByte : 0xF021#16 &&& 0xF0FF#16 = 0xF021#16 := by decide
/-- A string of two cells that wraps round the end of memory, and the empty string. -/
theorem witness_PutsWritesString :
    let s := start [(.r0, 0xFFFF#16)] [(0xFFFF#16, 0x0041#16), (0x0000#16, 0x0042#16)]
    0xF022#16 &&& 0xF0FF#16 = 0xF022#16 ∧
      (∀ k, k ≤ 2 → s.reg .r0 + BitVec.ofNat 16 k ≠ config.kbsrAddr) ∧
      (∀ k, k < 2 → s.cell (s.reg .r0 + BitVec.ofNat 16 k) ≠ 0x0000#16) ∧
      s.cell (s.reg .r0 + BitVec.ofNat 16 2) = 0x0000#16 ∧
      (∀ k, k ≤ 0 → State.reset.reg .r0 + BitVec.ofNat 16 k ≠ config.kbsrAddr) ∧
      State.reset.cell (State.reset.reg .r0 + BitVec.ofNat 16 0) = 0x0000#16 := by decide
theorem witness_PutspWritesPackedString :
    let s := start [(.r0, 0x4000#16)] [(0x4000#16, 0x4948#16), (0x4001#16, 0x0021#16)]
    0xF024#16 &&& 0xF0FF#16 = 0xF024#16 ∧
      (∀ k, k ≤ 2 → s.reg .r0 + BitVec.ofNat 16 k ≠ config.kbsrAddr) ∧
      (∀ k, k < 2 → s.cell (s.reg .r0 + BitVec.ofNat 16 k) ≠ 0x0000#16) ∧
      s.cell (s.reg .r0 + BitVec.ofNat 16 2) = 0x0000#16 := by decide
/-- Both clauses; the second also at the keyboard register, with a character pending. -/
theorem witness_StringWalkCellByCell :
    let s := start [(.r0, 0x4000#16)] [(0x4000#16, 0x4948#16)]
    let k := (console [0x41#8] [true]).setReg .r0 0xFE00#16
    State.reset.held = .none ∧ (memRead (State.reset.reg .r0) State.reset).1 = 0x0000#16 ∧ s.held = .none ∧
      (memRead (s.reg .r0) s).1 ≠ 0x0000#16 ∧ gives (fun t => t.held == .none) (exec .trapPuts s) = true ∧
      gives (fun t => t.held == .none) (exec .trapPutsp s) = true ∧ k.held = .none ∧
      (memRead (k.reg .r0) k).1 ≠ 0x0000#16 ∧ gives (fun t => t.held == .none) (exec .trapPuts k) = true ∧
      gives (fun t => t.held == .none) (exec .trapPutsp k) = true := by decide
theorem witness_StringEndsAtZeroCellOnly :
    ((Instr.trapPuts = .trapPuts ∧ Held.puts = .puts) ∨ (Instr.trapPuts = .trapPutsp ∧ Held.puts = .putsp)) ∧
      ((Instr.trapPutsp = .trapPuts ∧ Held.putsp = .puts) ∨ (Instr.trapPutsp = .trapPutsp ∧ Held.putsp = .putsp)) ∧
      State.reset.mem.wf = true ∧ State.reset.held = .none ∧ State.reset.conIn = [] := by decide

/-- `n` cells from address `lo` on, each 0x0001. -/
def ones : Nat → Nat → Memory
  | _, 0 => []
  | lo, n + 1 => (lo, 0x0001#16) :: ones (lo + 1) n

theorem ones_wfFrom : ∀ (n lo : Nat), lo + n ≤ 65536 → Memory.wfFrom lo (ones lo n) = true
  | 0, _, _ => rfl
  | n + 1, lo, h => by
    have hv : (0x0001#16 : Word) ≠ Memory.unlisted := by decide
    simp [ones, Memory.wfFrom, ones_wfFrom n (lo + 1) (by omega), hv]
    omega

theorem ones_read : ∀ (n lo a : Nat), lo ≤ a → a < lo + n → (ones lo n).read a = 0x0001#16
  | 0, _, _, h, h' => by omega
  | n + 1, lo, a, h, h' => by
    by_cases e : lo = a
    · simp [ones, Memory.read, e]
    · simp [ones, Memory.read, e, ones_read n (lo + 1) a (by omega) (by omega)]

/-- A state without a zero cell, between instructions and inside each routine. -/
theorem witness_StringWithoutZeroCellNeverEnds (routine : Held) : ∃ s : State, s.mem.wf = true ∧
    (∀ a, a ≠ config.kbsrAddr → s.cell a ≠ 0x0000#16) ∧ s.conIn = [] ∧ s.pollDraws = [] ∧ s.runState = .running ∧
    s.held = routine ∧ 0x41#8 ≠ 0x00#8 := by
  obtain ⟨n, hn⟩ : ∃ n, n = 65536 := ⟨_, rfl⟩
  refine ⟨{ State.reset with mem := ones 0 n, held := routine }, ones_wfFrom n 0 (by omega), fun a _ => ?_, rfl, rfl, rfl,
    rfl, by decide⟩
  have : (ones 0 n).read a.toNat = 0x0001#16 := ones_read n 0 a.toNat (by omega) (by omega)
  simp [State.cell, this]

theorem witness_HaltEndsRun : 0xFF25#16 &&& 0xF0FF#16 = 0xF025#16 := by decide
/-- The vectors next to the six on either side, and the ends of the range. -/
theorem witness_UnknownTrapDoesNothing : ([0xF000#16, 0xF01F#16, 0xF026#16, 0xF0FF#16].all fun w =>
    decide (w &&& 0xF000#16 = 0xF000#16 ∧ (fieldAt 0 8 w < 0x20 ∨ 0x25 < fieldAt 0 8 w))) = true := by decide
theorem witness_MemReadLatchesFirst : 0xFE01#16 ≠ config.kbsrAddr ∧ 0xFE00#16 = config.kbsrAddr := by decide
theorem witness_MemWriteStoresOneCell : State.reset.mem.wf = true := by decide
/-- Each clause: a byte and the answer yes, no byte, a byte and the answer no. -/
theorem witness_KeyboardReadShared :
    (console [0x41#8] [true]).mem.wf = true ∧ (console [0x41#8] [true]).conIn = 0x41#8 :: [] ∧
      (console [0x41#8] [true]).pollDraws = true :: [] ∧ (console [] []).conIn = [] ∧
      (console [0x41#8] [false]).pollDraws.head? = some false := by decide
/-- Each clause: a byte and the answer yes, no byte, a byte and the answer no, the contract "always false". -/
theorem witness_KeyboardReadDistinct :
    (console [0x41#8] [true]).mem.wf = true ∧ distinct.kbdrAddr ≠ distinct.kbsrAddr ∧ distinct.kbdPoll = .query ∧
      (console [0x41#8] [true]).conIn = 0x41#8 :: [] ∧ (console [0x41#8] [true]).pollDraws = true :: [] ∧
      (console [] []).conIn = [] ∧ (console [0x41#8] [false]).pollDraws.head? = some false ∧
      ({ distinct with kbdPoll := .never } : Config).kbdPoll = .never ∧
      ({ distinct with kbdPoll := .never } : Config).kbdrAddr ≠ ({ distinct with kbdPoll := .never } : Config).kbsrAddr := by
  decide
/-- Both alternatives of the last hypothesis, at the ends of memory and at the data register. -/
theorem witness_WrittenWordIsReadBack :
    let l := [Access.read 0xFE00#16, .write 0xFFFE#16 0x0005#16, .read 0x0000#16]
    State.reset.mem.wf = true ∧ 0xFFFF#16 ≠ config.kbsrAddr ∧ 0xFFFF#16 ≠ config.kbdrAddr ∧ 0x0000#16 ≠ config.kbsrAddr ∧
      (∀ b v, Access.write b v ∈ l → b ≠ 0xFFFF#16) ∧ (∀ b v, Access.write b v ∈ l → b ≠ 0x0000#16) ∧
      0xFE02#16 ≠ distinct.kbsrAddr ∧ 0xFE02#16 = distinct.kbdrAddr ∧
      Access.read distinct.kbsrAddr ∉ [Access.write 0x3000#16 0x0001#16, .read 0xFE02#16] ∧
      ∀ b v, Access.write b v ∈ [Access.write 0x3000#16 0x0001#16, .read 0xFE02#16] → b ≠ 0xFE02#16 := by
  refine ⟨by decide, by decide, by decide, by decide, ?_, ?_, by decide, by decide, by decide, ?_⟩ <;>
    intro b v h <;> simp at h <;> rw [h.1] <;> decide
/-- The same words written in two orders. -/
theorem witness_EqualMemoriesAreEqualData :
    let m := Memory.write (Memory.write [] 5 0x0001#16) 3 0x0002#16
    let m' := Memory.write (Memory.write [] 3 0x0002#16) 5 0x0001#16
    m.wf = true ∧ m'.wf = true ∧ ∀ a, a < 65536 → m.read a = m'.read a :=
  ⟨by decide, by decide, fun _ _ => rfl⟩
theorem witness_StepRunsDecodedInstruction : State.reset.runState = .running ∧ State.reset.held = .none ∧
    State.reset.shutdownReq = false ∧ State.reset.pc ≠ config.kbsrAddr := by decide
theorem witness_ShutdownAndHaltedRunNothing :
    let s := State.reset.raiseShutdown
    s.runState = .running ∧ s.held = .none ∧ s.shutdownReq = true ∧ (halt .haltTrap s).runState = .halted := by decide
/-- GETC; that PUTS and PUTSP stay inside somewhere is witness_StringWithoutZeroCellNeverEnds. -/
theorem witness_WaitIsEnteredByGetcAndIn :
    State.reset.held = .none ∧ exec .trapGetc State.reset = .next { State.reset with held := .getc } ∧
      ({ State.reset with held := .getc } : State).held ≠ .none ∧ State.reset.conIn = [] ∧ State.reset.shutdownReq = false :=
  ⟨rfl, rfl, by decide, rfl, rfl⟩
/-- Each clause: the request, nothing, a byte. -/
theorem witness_WaitIsLeftByByteOrShutdown :
    let s : State := { State.reset with held := .inEcho }
    s.runState = .running ∧ (s.held = .getc ∨ s.held = .inEcho) ∧ s.raiseShutdown.shutdownReq = true ∧ s.shutdownReq = false ∧ s.conIn = [] ∧
      (s.receive 0x79#8).conIn = 0x79#8 :: [] := by decide
theorem witness_PcAfterEveryInstruction : State.reset.ready ∧ step State.reset = .next (State.reset.setPc 0x3001#16) ∧
    (Instr.not .r0 .r1).usesPc = false ∧ ∃ t, exec (.not .r0 .r1) State.reset = .next t :=
  ⟨⟨rfl, rfl, rfl⟩, rfl, rfl, _, rfl⟩
/-- ST, STR and STI, each storing R0 to the next instruction's address. -/
theorem witness_StoreIsSeenByNextFetch :
    ([start [(.r0, 0xF025#16)] [(0x3000#16, 0x3000#16)],
      start [(.r0, 0xF025#16), (.r1, 0x3001#16)] [(0x3000#16, 0x7040#16)],
      start [(.r0, 0xF025#16)] [(0x3000#16, 0xB005#16), (0x3006#16, 0x3001#16)]].all fun s =>
        decide (s.runState = .running ∧ s.held = .none ∧ s.shutdownReq = false ∧ s.mem.wf = true ∧
          (decode (fetch s).1).storesFrom = some .r0 ∧ (decode (fetch s).1).storesTo (fetch s).2 = some (s.pc + 1) ∧
          s.pc + 1 ≠ config.kbsrAddr)) = true := by decide
/-- The reset state and what its step gives. -/
theorem witness_StepKeepsInvariant : State.reset.Inv ∧ step State.reset = .next (State.reset.setPc 0x3001#16) :=
  ⟨⟨by decide, by decide, by decide, by decide⟩, rfl⟩
theorem witness_ReachableStatesHaveInvariant : Reachable (State.reset.setPc 0x3001#16) := .step .reset rfl
theorem witness_RegisterUseTable :
    exec (.addReg .r0 .r1 .r2) State.reset = .next (State.reset.setCond 0b010#3) ∧
      Reg.r0 ∉ (Instr.addReg .r0 .r1 .r2).reads ∧ (Instr.addReg .r0 .r1 .r2).setsFlags = true ∧
      exec (.jmp .r1) State.reset = .next (State.reset.setPc 0x0000#16) ∧ (Instr.jmp .r1).setsFlags = false :=
  ⟨rfl, by decide, rfl, rfl, rfl⟩
theorem witness_OnlyBranchReadsFlags :
    (∀ nzp off, Instr.jmp .r1 ≠ .br nzp off) ∧ exec (.jmp .r1) State.reset = .next (State.reset.setPc 0x0000#16) :=
  ⟨by simp, rfl⟩
theorem witness_FlagsStayOneHot :
    exec (.addReg .r0 .r1 .r2) State.reset = .next (State.reset.setCond 0b010#3) ∧
      (Instr.addReg .r0 .r1 .r2).setsFlags = true ∧ (State.reset.setCond 0b010#3).flagsOneHot ∧
      step (State.reset.setCond 0b010#3) = .next ((State.reset.setCond 0b010#3).setPc 0x3001#16) ∧
      State.reset.cond = 0b000#3 ∧ exec (.jmp .r1) State.reset = .next (State.reset.setPc 0x0000#16) ∧
      (Instr.jmp .r1).setsFlags = false :=
  ⟨rfl, rfl, .inr (.inl rfl), rfl, rfl, rfl, rfl⟩
theorem witness_OnlyStoresChangeMemory :
    exec (.st .r1 0#9) (start [(.r1, 0x1234#16)]) = .next ((start [(.r1, 0x1234#16)]).setCell 0x3000#16 0x1234#16) ∧
      (Instr.st .r1 0#9).storesTo (start [(.r1, 0x1234#16)]) ≠ some 0x3001#16 ∧ 0x3001#16 ≠ config.kbsrAddr ∧
      0x3001#16 ≠ config.kbdrAddr :=
  ⟨rfl, by decide, by decide, by decide⟩
theorem witness_OutputIsAppendOnly : step State.reset = .next (State.reset.setPc 0x3001#16) ∧
    exec (.jmp .r1) State.reset = .next (State.reset.setPc 0x0000#16) ∧ (Instr.jmp .r1).printsBytes = false :=
  ⟨rfl, rfl, rfl⟩
theorem witness_InputIsTakenInOrder : ∃ t, runWord 0xF020#16 (console [0x61#8] []) = .next t := ⟨_, rfl⟩
/-- One state for each of the four events. -/
theorem witness_FourEventsEndARun :
    State.reset.raiseShutdown.runState = .running ∧
      step State.reset.raiseShutdown = .next (halt .shutdown State.reset.raiseShutdown) ∧
      gives (fun t => t.runState == .halted) (runWord 0xF025#16 State.reset) = true ∧
      gives (fun t => t.runState == .halted) (runWord 0x8000#16 State.reset) = true ∧
      gives (fun t => t.runState == .halted) (runWord 0xD000#16 State.reset) = true :=
  ⟨rfl, rfl, by decide, by decide, by decide⟩
/-- Two words, and the origin alone. -/
theorem witness_ImageIsLoadedFromOrigin :
    [0x30#8, 0x00#8, 0x50#8, 0x20#8, 0x0E#8, 0x01#8].length = 2 * 2 + 2 ∧ [0x30#8, 0x00#8].length = 2 * 0 + 2 ∧
      (∀ j, 0 < j → j < 2 → BitVec.ofNat 16 (0x3000 + j) ≠ BitVec.ofNat 16 (0x3000 + 0)) :=
  ⟨rfl, rfl, fun j h h' => by obtain rfl : j = 1 := by omega
                              decide⟩
theorem witness_ImageEdgeCases :
    [0x30#8, 0x00#8].length % 2 = 0 ∧ [0x30#8, 0x00#8] ≠ ([] : List Byte) ∧ [0x30#8].length < 2 ∧
      ([] : List Byte).length < 2 := by decide

end Sys2Proof.Tests
end

section
/-! PROOFS. The obligation of 00_scope.md: sign and zero extension (R10). -/

namespace Sys2Proof.Proofs

open Sys2Proof.Machine Sys2Proof.Machine.Laws

/-- R10 chooses by the bit `v[N-1]`, `sextNat` by comparing with its weight: the bit is set from `2^(N-1)` upwards. -/
theorem sextNat_eq_ite_topBit {n : Nat} (v : BitVec n) :
    sextNat n v.toNat = if v.getLsbD (n - 1) then v.toNat + 65536 - 2 ^ n else v.toNat := by
  have topBit : v.getLsbD (n - 1) = decide (2 ^ (n - 1) ≤ v.toNat) := by
    rw [← BitVec.msb_eq_getLsbD_last, BitVec.msb_eq_decide]
  unfold sextNat
  by_cases below : v.toNat < 2 ^ (n - 1)
  · simp [topBit, below, Nat.not_le.mpr below]
  · simp [topBit, below, Nat.not_lt.mp below]

/-- Settles O1: the model's `sext` is R10's formula (`sext_toNat`), whose case is the field's top bit. -/
theorem signExtensionByTopBit : Obligations.SignExtensionByTopBit := by
  refine ⟨fun n v one_le le_sixteen => ?_, zext_toNat⟩
  rw [sext_toNat one_le le_sixteen, sextNat_eq_ite_topBit]

end Sys2Proof.Proofs
end

section
/-! PROOFS. The obligation of 10_state.md: the table of registers read and written, and of the flags (R22). -/

namespace Sys2Proof.Proofs

open Sys2Proof.Machine Sys2Proof.Machine.Laws

/-! What each shared operation writes: registers and flags. -/

/-- An unchanged register file has no register changed, whichever are excepted. -/
theorem sameRegs_of_regs_eq {s t : State} {rs : List Reg} (same : t.regs = s.regs) : SameRegs rs s t := by
  intro r _
  rw [State.reg, State.reg, same]

theorem setReg_sameRegs (r : Reg) (v : Word) (s : State) : SameRegs [r] s (s.setReg r v) := by
  intro r' unlisted
  exact setReg_reg_ne s v (List.ne_of_not_mem_cons unlisted)

theorem writeDest_sameRegs (dr : Reg) (v : Word) (s : State) : SameRegs [dr] s (writeDest dr v s) :=
  setReg_sameRegs dr v s

/-- `setcc` sets the flags from the value just written (R86). -/
theorem writeDest_flagsFor (dr : Reg) (v : Word) (s : State) :
    FlagsFor ((writeDest dr v s).reg dr) (writeDest dr v s) := by
  rw [FlagsFor, writeDest_reg_same, writeDest_cond]
  exact ⟨flagsOf_zero, flagsOf_neg, flagsOf_pos⟩

/-- The seven (R27) all end in `writeDest` of the register they list, in a state whose registers are still those
before the instruction: the keyboard latch of a load touches none. -/
theorem exec_of_setsFlags {i : Instr} {s t : State} (run : exec i s = .next t) (sets : i.setsFlags = true) :
    ∃ dr v u, i.writes = [dr] ∧ u.regs = s.regs ∧ t = writeDest dr v u := by
  cases i with
  | addReg dr | addImm dr | andReg dr | andImm dr | not dr | lea dr =>
    cases run
    exact ⟨dr, _, s, rfl, rfl, rfl⟩
  | ld dr | ldr dr =>
    cases run
    exact ⟨dr, _, _, rfl, memRead_regs _ s, rfl⟩
  | ldi dr =>
    cases run
    exact ⟨dr, _, _, rfl, (memRead_regs _ _).trans (memRead_regs _ s), rfl⟩
  | _ => cases sets

/-- Of the three ends of an evaluated input wait (R89, R177) only the taking of a byte can change a register. -/
theorem requestChar_frame {w : Held} {resume : Byte → State → State} {s : State} {rs : List Reg}
    (takes : ∀ c u, (resume c u).cond = u.cond ∧ SameRegs rs u (resume c u)) :
    (requestChar w resume s).cond = s.cond ∧ SameRegs rs s (requestChar w resume s) :=
  requestChar_induction (P := fun t => t.cond = s.cond ∧ SameRegs rs s t)
    ⟨rfl, fun _ _ => rfl⟩ (fun c _ _ => takes c _) (fun _ => ⟨rfl, fun _ _ => rfl⟩)

/-- The other instructions leave `cond`, and every register they do not list as written. -/
theorem exec_of_not_setsFlags {i : Instr} {s t : State} (run : exec i s = .next t) (keeps : i.setsFlags = false) :
    t.cond = s.cond ∧ SameRegs i.writes s t := by
  cases i with
  | br nzp offset9 =>
    cases run
    split
    · exact ⟨rfl, fun _ _ => rfl⟩
    · exact ⟨rfl, fun _ _ => rfl⟩
  | st | str | jmp | ret | rti | res | trapOut | trapHalt | trap =>
    cases run
    exact ⟨rfl, fun _ _ => rfl⟩
  | sti sr offset9 =>
    cases run
    exact ⟨memRead_cond _ s, sameRegs_of_regs_eq (memRead_regs _ s)⟩
  | jsr | jsrr =>
    cases run
    exact ⟨rfl, setReg_sameRegs .r7 s.pc s⟩
  | trapGetc =>
    cases run
    exact requestChar_frame fun c u => ⟨rfl, setReg_sameRegs .r0 (zext c) u⟩
  | trapIn =>
    cases run
    exact requestChar_frame (s := writeBytes config.inPrompt s)
      fun c u => ⟨rfl, setReg_sameRegs .r0 (zext c) u⟩
  | trapPuts | trapPutsp =>
    cases run
    obtain ⟨regs, -, cond, -⟩ := putString_frame _ _ s
    exact ⟨cond, sameRegs_of_regs_eq regs⟩
  | _ => cases keeps

/-! What each shared operation does with a register it does not read: another value in it comes out in it again, or is
overwritten. -/

/-- Of two writes to registers the first can be made the last, with the value that was there in the end. -/
theorem setReg_setReg (s : State) (r dr : Reg) (v w : Word) :
    (s.setReg r v).setReg dr w = (s.setReg dr w).setReg r (if r = dr then w else v) := by
  by_cases same : r = dr
  · subst same
    rw [if_pos rfl]
    cases r <;> rfl
  · rw [if_neg same]
    exact congrArg (fun f => { s with regs := f }) (set_comm s.regs v w same)

theorem linkR7_setReg (s : State) (r : Reg) (v : Word) :
    linkR7 (s.setReg r v) = (linkR7 s).setReg r (if r = .r7 then s.pc else v) :=
  setReg_setReg s r .r7 v s.pc

theorem writeDest_setReg (dr : Reg) (w : Word) (s : State) (r : Reg) (v : Word) :
    writeDest dr w (s.setReg r v) = (writeDest dr w s).setReg r (if r = dr then w else v) := by
  rw [writeDest, setcc, setReg_reg_same, setReg_setReg, writeDest, setcc, setReg_reg_same]
  rfl

theorem loadFrom_setReg (dr : Reg) (ea : Word) (s : State) (r : Reg) (v : Word) :
    loadFrom dr ea (s.setReg r v) = (loadFrom dr ea s).setReg r (if r = dr then (memRead ea s).1 else v) := by
  rw [loadFrom, memRead_setReg, writeDest_setReg, loadFrom]

theorem walkString_setReg (emit : Word → List Byte) (fuel : Nat) (a : Word) (s : State) (r : Reg) (v : Word) :
    walkString emit fuel a (s.setReg r v) =
      ((walkString emit fuel a s).1, (walkString emit fuel a s).2.setReg r v) := by
  induction fuel generalizing a s with
  | zero => rfl
  | succ fuel ih =>
    rw [walkString_succ, walkString_succ, memRead_setReg]
    split
    · rfl
    · exact ih (a + 1) (writeBytes (emit (memRead a s).1) (memRead a s).2)

theorem putString_setReg (routine : Held) (emit : Word → List Byte) {s : State} {r : Reg} {v : Word}
    (unread : (s.setReg r v).reg .r0 = s.reg .r0) :
    putString routine emit (s.setReg r v) = (putString routine emit s).setReg r v := by
  rw [putString, putString, unread, walkString_setReg]
  split
  · rfl
  · rfl

theorem requestChar_setReg {w : Held} {resume : Byte → State → State} {s : State} {r : Reg} {v : Word}
    (takes : ∀ c u, ∃ v', resume c (u.setReg r v) = (resume c u).setReg r v') :
    ∃ v', requestChar w resume (s.setReg r v) = (requestChar w resume s).setReg r v' := by
  rw [requestChar, requestChar, setReg_shutdownReq, setReg_conIn]
  split
  · exact ⟨v, rfl⟩
  · split
    · rename_i c rest _
      exact takes c { s with held := .none, conIn := rest }
    · exact ⟨v, rfl⟩

/-- A value in a register that the table does not list as read reaches nothing but that register. -/
theorem exec_setReg_of_not_read {i : Instr} {s t : State} {r : Reg} (v : Word) (unread : r ∉ i.reads)
    (run : exec i s = .next t) : ∃ v', exec i (s.setReg r v) = .next (t.setReg r v') := by
  have same : ∀ r' ∈ i.reads, ∀ (u : State) (w : Word), (u.setReg r w).reg r' = u.reg r' :=
    fun r' listed u w => setReg_reg_ne u w (ne_of_mem_of_not_mem listed unread)
  cases i with
  | br nzp offset9 =>
    cases run
    refine ⟨v, congrArg Host.Outcome.next ?_⟩
    rw [setReg_cond]
    split
    · rfl
    · rfl
  | addReg | addImm | andReg | andImm | not =>
    cases run
    simp only [Instr.reads, List.forall_mem_cons] at same
    simp only [exec, execAddReg, execAddImm, execAndReg, execAndImm, execNot, same, writeDest_setReg]
    exact ⟨_, rfl⟩
  | lea dr offset9 =>
    cases run
    exact ⟨_, congrArg Host.Outcome.next (writeDest_setReg dr (ea9 offset9 s) s r v)⟩
  | ld dr offset9 =>
    cases run
    exact ⟨_, congrArg Host.Outcome.next (loadFrom_setReg dr (ea9 offset9 s) s r v)⟩
  | ldr dr baseR offset6 =>
    cases run
    simp only [Instr.reads, List.forall_mem_cons] at same
    simp only [exec, execLdr, ea6, same, loadFrom_setReg]
    exact ⟨_, rfl⟩
  | ldi dr offset9 =>
    cases run
    simp only [exec, execLdi, memRead_setReg, loadFrom_setReg]
    exact ⟨_, rfl⟩
  | st | str | sti =>
    cases run
    simp only [Instr.reads, List.forall_mem_cons] at same
    simp only [exec, execSt, execStr, execSti, ea6, same, memRead_setReg]
    exact ⟨v, rfl⟩
  | jmp | ret =>
    cases run
    simp only [Instr.reads, List.forall_mem_cons] at same
    simp only [exec, execJmp, execRet, jumpThrough, same]
    exact ⟨v, rfl⟩
  | jsr | jsrr =>
    cases run
    simp only [Instr.reads, List.forall_mem_cons] at same
    simp only [exec, execJsr, execJsrr, jumpThrough, linkR7_setReg, same]
    exact ⟨_, rfl⟩
  | rti | res | trapHalt | trap =>
    cases run
    exact ⟨v, rfl⟩
  | trapOut =>
    cases run
    simp only [Instr.reads, List.forall_mem_cons] at same
    simp only [exec, execTrapOut, same]
    exact ⟨v, rfl⟩
  | trapPuts | trapPutsp =>
    cases run
    exact ⟨v, congrArg Host.Outcome.next (putString_setReg _ _ (same .r0 (.head _) s v))⟩
  | trapGetc =>
    cases run
    obtain ⟨v', gets⟩ := requestChar_setReg (w := .getc) (resume := getcTakes) (s := s) (r := r) (v := v)
      fun c u => ⟨_, setReg_setReg u r .r0 v (zext c)⟩
    exact ⟨v', congrArg Host.Outcome.next gets⟩
  | trapIn =>
    cases run
    obtain ⟨v', gets⟩ := requestChar_setReg (w := .inEcho) (resume := inTakes) (s := writeBytes config.inPrompt s)
      (r := r) (v := v)
      fun c u => ⟨_, setReg_setReg (consoleWriteByte config.newline (consoleWriteByte c u)) r .r0 v (zext c)⟩
    exact ⟨v', congrArg Host.Outcome.next gets⟩

/-- R22, the column of registers written. -/
theorem exec_sameRegs {i : Instr} {s t : State} (run : exec i s = .next t) : SameRegs i.writes s t := by
  cases sets : i.setsFlags with
  | false => exact (exec_of_not_setsFlags run sets).2
  | true =>
    obtain ⟨dr, v, u, writes, regs, rfl⟩ := exec_of_setsFlags run sets
    intro r unlisted
    rw [writes] at unlisted
    rw [writeDest_sameRegs dr v u r unlisted, State.reg, State.reg, regs]

/-- R22, the column of `cond`: an instruction that sets the flags sets them from the register it wrote. -/
theorem exec_flagsFor {i : Instr} {s t : State} (run : exec i s = .next t) (sets : i.setsFlags = true) {dr : Reg}
    (written : dr ∈ i.writes) : FlagsFor (t.reg dr) t := by
  obtain ⟨dr', v, u, writes, -, rfl⟩ := exec_of_setsFlags run sets
  rw [writes, List.mem_singleton] at written
  subst written
  exact writeDest_flagsFor dr v u

/-- Settles O50, column by column of R22's table: what is written (`exec_sameRegs`), what is read
(`exec_setReg_of_not_read`), and the flags (`exec_of_not_setsFlags`, `exec_flagsFor`). -/
theorem registerUseTable : Obligations.RegisterUseTable :=
  ⟨fun _ _ _ run => exec_sameRegs run,
    fun _ _ _ _ v unread run => exec_setReg_of_not_read v unread run,
    fun _ _ _ run => ⟨fun keeps => (exec_of_not_setsFlags run keeps).1,
      fun sets _ written => exec_flagsFor run sets written⟩⟩

end Sys2Proof.Proofs
end

section
/-! PROOFS. The obligations of 20_memory.md: MemRead, MemWrite, and the word read back (R41, R42, R46). -/

namespace Sys2Proof.Proofs

open Sys2Proof.Machine Sys2Proof.Machine.Laws

/-! MemRead (R41), for every choice of the keyboard addresses. -/

theorem memReadIn_plain {c : Config} {a : Word} (s : State) (plain : a ≠ c.kbsrAddr) :
    memReadIn c a s = (s.cell a, s) := by
  rw [memReadIn, if_neg plain]

theorem memReadIn_kbsr (c : Config) (s : State) :
    memReadIn c c.kbsrAddr s = ((kbdLatchIn c s).cell c.kbsrAddr, kbdLatchIn c s) := by
  rw [memReadIn, if_pos rfl]

/-- Settles O34: the two branches of MemRead. -/
theorem memReadLatchesFirst : Obligations.MemReadLatchesFirst := by
  intro c a s
  refine ⟨memReadIn_plain s, ?_⟩
  rintro rfl
  exact memReadIn_kbsr c s

/-! MemWrite (R42). -/

theorem memWrite_sameCells (a v : Word) (s : State) : SameCells [a] s (memWrite a v s) := by
  intro b unlisted
  exact setCell_cell_ne s v (List.ne_of_not_mem_cons unlisted)

/-- Settles O35: a store is `setCell`, which is plain storage at every address and touches no field but the memory. -/
theorem memWriteStoresOneCell : Obligations.MemWriteStoresOneCell := by
  intro a v s canonical
  have env : SameEnv s (memWrite a v s) := ⟨rfl, rfl, rfl, rfl, rfl⟩
  have run : SameRun s (memWrite a v s) := ⟨rfl, rfl, rfl⟩
  exact ⟨setCell_cell_same a v canonical, rfl, rfl, sameRegs_of_regs_eq rfl, memWrite_sameCells a v s, env, run⟩

/-! What a run of accesses leaves in one cell (R46). -/

/-- The latch writes the status cell and, when a byte came, the data cell (R43). -/
theorem kbdLatchIn_cell {c : Config} {a : Word} (s : State) (notStatus : a ≠ c.kbsrAddr) (notData : a ≠ c.kbdrAddr) :
    (kbdLatchIn c s).cell a = s.cell a := by
  obtain ⟨latch, -⟩ | ⟨ch, rest, -, -, -, latch⟩ := kbdLatchIn_cases c s
  · rw [latch, setCell_cell_ne _ _ notStatus, usePoll_cell]
  · rw [latch, setCell_cell_ne _ _ notData, setCell_cell_ne _ _ notStatus]
    rfl

/-- An access keeps the cell at `a ≠ KBSR_ADDR` unless it is a write to `a`, or `a` is KBDR_ADDR and it is a read of
KBSR_ADDR. -/
theorem access_run_cell {c : Config} {a : Word} (s : State) {access : Access} (notStatus : a ≠ c.kbsrAddr)
    (notWritten : ∀ b v, access = .write b v → b ≠ a) (notLatched : a ≠ c.kbdrAddr ∨ access ≠ .read c.kbsrAddr) :
    (access.run c s).cell a = s.cell a := by
  cases access with
  | write b v => exact setCell_cell_ne s v (notWritten b v rfl).symm
  | read b =>
    rw [Access.run]
    by_cases status : b = c.kbsrAddr
    · subst status
      rw [memReadIn_kbsr]
      exact kbdLatchIn_cell s notStatus (notLatched.resolve_right fun other => other rfl)
    · rw [memReadIn_plain s status]

/-- Settles O38: the word stays in its cell along the accesses between, and the read at its end is plain. -/
theorem writtenWordIsReadBack : Obligations.WrittenWordIsReadBack := by
  intro c a x s between canonical notStatus noWrite noLatch
  rw [memReadIn_plain _ notStatus]
  refine List.foldlRecOn between (Access.run c) (motive := fun t => t.cell a = x)
    (setCell_cell_same a x canonical) ?kept
  case kept =>
    intro t held access inBetween
    have kept : (access.run c t).cell a = t.cell a :=
      access_run_cell t notStatus (fun b v isWrite => noWrite b v (isWrite ▸ inBetween))
        (noLatch.imp_right fun unread isRead => unread (isRead ▸ inBetween))
    exact kept.trans held

end Sys2Proof.Proofs
end

section
/-! PROOFS. The obligation of 40_execution_cycle.md: the flag invariant (R87). -/

namespace Sys2Proof.Proofs

open Sys2Proof.Machine Sys2Proof.Machine.Laws

/-! `cond` is one-hot after an instruction. -/

theorem flagsOneHot_of_cond_eq {s t : State} (oneHot : s.flagsOneHot) (same : t.cond = s.cond) : t.flagsOneHot := by
  rwa [State.flagsOneHot, same]

theorem writeDest_flagsOneHot (dr : Reg) (v : Word) (s : State) : (writeDest dr v s).flagsOneHot := by
  rw [State.flagsOneHot, writeDest_cond]
  exact flagsOf_cases v

/-- Each of the seven makes `cond` one-hot, whatever it was before. -/
theorem exec_flagsOneHot_of_setsFlags {i : Instr} {s t : State} (run : exec i s = .next t)
    (sets : i.setsFlags = true) : t.flagsOneHot := by
  obtain ⟨dr, v, u, -, -, rfl⟩ := exec_of_setsFlags run sets
  exact writeDest_flagsOneHot dr v u

/-- Once one-hot, `cond` is one-hot after every instruction: it is set anew, or it is kept. -/
theorem exec_keeps_flagsOneHot {i : Instr} {s t : State} (oneHot : s.flagsOneHot) (run : exec i s = .next t) :
    t.flagsOneHot := by
  cases sets : i.setsFlags with
  | true => exact exec_flagsOneHot_of_setsFlags run sets
  | false => exact flagsOneHot_of_cond_eq oneHot (exec_of_not_setsFlags run sets).1

/-! `cond` is one-hot after a step. Outside the execution of an instruction a step leaves it alone. -/

theorem fetch_cond (s : State) : (fetch s).2.cond = s.cond := by
  rw [fetch_eq, setPc_cond, memRead_cond]

theorem requestChar_cond (w : Held) {resume : Byte → State → State} (s : State)
    (keeps : ∀ c u, (resume c u).cond = u.cond) : (requestChar w resume s).cond = s.cond :=
  requestChar_induction (P := fun t => t.cond = s.cond) rfl (fun c _ _ => keeps c _) (fun _ => rfl)

theorem awaitGetc_cond (s : State) : (awaitGetc s).cond = s.cond :=
  requestChar_cond .getc (resume := getcTakes) s fun _ _ => rfl

theorem awaitIn_cond (s : State) : (awaitIn s).cond = s.cond :=
  requestChar_cond .inEcho (resume := inTakes) s fun _ _ => rfl

theorem putString_cond (routine : Held) (emit : Word → List Byte) (s : State) :
    (putString routine emit s).cond = s.cond :=
  (putString_frame routine emit s).2.2.1

theorem step_keeps_flagsOneHot {s t : State} (oneHot : s.flagsOneHot) (stepped : step s = .next t) :
    t.flagsOneHot := by
  obtain ⟨-, rfl⟩ | ⟨-, -, rfl⟩ | ⟨-, -, rfl⟩ | ⟨-, -, rfl⟩ | ⟨-, -, rfl⟩ | ⟨-, -, -, rfl⟩ | ⟨-, -, -, run⟩ :=
    step_cases stepped
  · exact oneHot
  · exact flagsOneHot_of_cond_eq oneHot (awaitGetc_cond s)
  · exact flagsOneHot_of_cond_eq oneHot (awaitIn_cond s)
  · exact flagsOneHot_of_cond_eq oneHot (putString_cond .puts putsBytes { s with held := .none })
  · exact flagsOneHot_of_cond_eq oneHot (putString_cond .putsp putspBytes { s with held := .none })
  · exact flagsOneHot_of_cond_eq oneHot (halt_cond s .shutdown)
  · exact exec_keeps_flagsOneHot (flagsOneHot_of_cond_eq oneHot (fetch_cond s)) run

/-! BR and the flags (R130). -/

theorem exec_br_taken {nzp : BitVec 3} {s : State} (off : BitVec 9) (meets : nzp &&& s.cond ≠ 0b000#3) :
    exec (.br nzp off) s = .next (s.setPc (s.pc + sext off)) :=
  congrArg Host.Outcome.next (if_neg meets)

theorem exec_br_not_taken {nzp : BitVec 3} {s : State} (off : BitVec 9) (misses : nzp &&& s.cond = 0b000#3) :
    exec (.br nzp off) s = .next s :=
  congrArg Host.Outcome.next (if_pos misses)

/-- One-hot flags are not zero (D2), so a field of ones meets them. -/
theorem allFlags_and_cond_ne_zero {s : State} (oneHot : s.flagsOneHot) : 0b111#3 &&& s.cond ≠ 0b000#3 := by
  obtain pos | zro | neg := oneHot
  · rw [pos]
    decide
  · rw [zro]
    decide
  · rw [neg]
    decide

/-- Settles O52: the seven end in a flag update (`exec_of_setsFlags`), nothing else changes `cond`
(`exec_of_not_setsFlags`, `step_cases`), and BR tests the field's bits against it. -/
theorem flagsStayOneHot : Obligations.FlagsStayOneHot := by
  refine ⟨?seven, ?steps, ?taken, ?notTaken, ?others⟩
  case seven =>
    intro i s t run sets
    exact ⟨exec_flagsOneHot_of_setsFlags run sets, fun dr written => exec_flagsFor run sets written⟩
  case steps => exact fun _ _ oneHot stepped => step_keeps_flagsOneHot oneHot stepped
  case taken => exact fun _ off oneHot => exec_br_taken off (allFlags_and_cond_ne_zero oneHot)
  case notTaken =>
    intro s nzp off unset
    refine exec_br_not_taken off ?_
    rw [unset]
    exact BitVec.and_zero
  case others => exact fun _ _ _ run keeps => (exec_of_not_setsFlags run keeps).1

end Sys2Proof.Proofs
end

section
/-! PROOFS. The obligations of 41_operate.md: ADD, AND and NOT (R100 to R104). Each row's word decodes to an
instruction whose meaning is one `writeDest`, so the frame and the flags are one lemma for all five
(`writeDest_wroteDest`), and a proof of its own is left only the number that the value written stands for. -/

namespace Sys2Proof.Proofs

open Sys2Proof.Machine Sys2Proof.Machine.Laws

/-! What `writeDest` does (R86), as the statements about a destination register say it. -/

theorem writeDest_onlyCore (dr : Reg) (v : Word) (s : State) : OnlyCore [dr] [] s (writeDest dr v s) := by
  have cells : SameCells [] s (writeDest dr v s) := fun a _ => writeDest_cell dr v a s
  have env : SameEnv s (writeDest dr v s) := ⟨rfl, rfl, rfl, rfl, rfl⟩
  have run : SameRun s (writeDest dr v s) := ⟨rfl, rfl, rfl⟩
  exact ⟨writeDest_sameRegs dr v s, cells, env, run⟩

/-- Writing a word to the destination is writing the number that it stands for. -/
theorem writeDest_wroteDest {v : Word} {n : Nat} (dr : Reg) (s : State) (value : v.toNat = n) :
    WroteDest dr n s (writeDest dr v s) := by
  have written : ((writeDest dr v s).reg dr).toNat = n := by rw [writeDest_reg_same, value]
  exact ⟨written, writeDest_flagsFor dr v s, writeDest_pc dr v s, writeDest_onlyCore dr v s⟩

/-! ADD. -/

/-- Settles O7: the addition of words is the addition of numbers modulo 65536. -/
theorem addRegisterForm : Obligations.AddRegisterForm := by
  intro w s row
  simp only [decode_addReg row, regField_eq_regAt]
  exact ⟨_, rfl, writeDest_wroteDest _ s (BitVec.toNat_add _ _)⟩

/-- Settles O8: as the register form, with R10's number of the extended field as the second operand. -/
theorem addImmediateForm : Obligations.AddImmediateForm := by
  intro w s row
  simp only [decode_addImm row, regField_eq_regAt]
  refine ⟨_, rfl, writeDest_wroteDest _ s ?value⟩
  case value => rw [BitVec.toNat_add, sext_bitsAt_toNat (by decide) (by decide)]

/-! AND. -/

/-- Settles O9: the AND of words is the AND of numbers, bit by bit. -/
theorem andRegisterForm : Obligations.AndRegisterForm := by
  intro w s row
  simp only [decode_andReg row, regField_eq_regAt]
  exact ⟨_, rfl, writeDest_wroteDest _ s (BitVec.toNat_and _ _)⟩

/-- Settles O10: as the register form, with R10's number of the extended field as the mask. -/
theorem andImmediateForm : Obligations.AndImmediateForm := by
  intro w s row
  simp only [decode_andImm row, regField_eq_regAt]
  refine ⟨_, rfl, writeDest_wroteDest _ s ?value⟩
  case value => rw [BitVec.toNat_and, sext_bitsAt_toNat (by decide) (by decide)]

/-! NOT. -/

/-- Settles O11: the complement of a word is its distance from the word of ones. -/
theorem notComplements : Obligations.NotComplements := by
  intro w s row
  simp only [decode_not row, regField_eq_regAt]
  exact ⟨_, rfl, writeDest_wroteDest _ s BitVec.toNat_not⟩

end Sys2Proof.Proofs
end

section
/-! PROOFS. The obligations of 42_data_movement.md: LD, ST, LDR, STR, LDI, STI and LEA (R110 to R116). A row's meaning
is one load (`loadFrom`), one store (`memWrite`) or one `writeDest`, for LDI and STI in the state the pointer read left;
what each of these does is said once, and a proof of its own is left only the address. -/

namespace Sys2Proof.Proofs

open Sys2Proof.Machine Sys2Proof.Machine.Laws

/-! Effective addresses (R117), from the fields of the word. -/

theorem add_sext_eq_relTo {n : Nat} (base w : Word) (pos : 0 < n) (le_sixteen : n ≤ 16) :
    base + sext (bitsAt 0 n w) = relTo base n w := by
  apply BitVec.eq_of_toNat_eq
  rw [BitVec.toNat_add, sext_bitsAt_toNat pos le_sixteen, relTo, BitVec.toNat_ofNat]

theorem ea9_eq_relTo (w : Word) (s : State) : ea9 (bitsAt 0 9 w) s = relTo s.pc 9 w :=
  add_sext_eq_relTo s.pc w (by decide) (by decide)

theorem ea6_eq_relTo (baseR : Reg) (w : Word) (s : State) : ea6 baseR (bitsAt 0 6 w) s = relTo (s.reg baseR) 6 w :=
  add_sext_eq_relTo (s.reg baseR) w (by decide) (by decide)

/-! What a load and a store do, as the statements say it. -/

/-- A load writes the destination in the state that its read left. -/
theorem loadFrom_wroteDest (dr : Reg) (ea : Word) (s : State) :
    WroteDest dr (memRead ea s).1.toNat (memRead ea s).2 (loadFrom dr ea s) :=
  writeDest_wroteDest dr (memRead ea s).2 rfl

/-- Away from KBSR_ADDR the read is plain, so the value is the cell's and the state is the one before. -/
theorem loadFrom_wroteDest_cell (dr : Reg) {ea : Word} (s : State) (plain : ea ≠ config.kbsrAddr) :
    WroteDest dr (s.cell ea).toNat s (loadFrom dr ea s) := by
  have load := loadFrom_wroteDest dr ea s
  rwa [memRead_plain s plain] at load

theorem memWrite_storedCell (a v : Word) {s : State} (canonical : s.mem.wf = true) :
    StoredCell a v s (memWrite a v s) :=
  memWriteStoresOneCell a v s canonical

/-! Loads. -/

/-- Settles O12: a load from the pc-relative address. -/
theorem loadPcRelative : Obligations.LoadPcRelative := by
  intro w s row ea
  have run : exec (decode w) s = .next (loadFrom (regAt 9 w) ea s) := by
    rw [decode_ld row, regField_eq_regAt, exec, execLd, ea9_eq_relTo]
  exact ⟨_, run, loadFrom_wroteDest _ ea s, loadFrom_wroteDest_cell _ s⟩

/-- Settles O14: as LD, with the base register's value before the load in place of the pc. -/
theorem loadBasePlusOffset : Obligations.LoadBasePlusOffset := by
  intro w s row ea
  have run : exec (decode w) s = .next (loadFrom (regAt 9 w) ea s) := by
    rw [decode_ldr row, regField_eq_regAt, regField_eq_regAt, exec, execLdr, ea6_eq_relTo]
  exact ⟨_, run, loadFrom_wroteDest _ ea s, loadFrom_wroteDest_cell _ s⟩

/-- Settles O16: a load from the pointer in the state the pointer read left; a plain pointer read leaves the state
before and answers the pointer cell. -/
theorem loadIndirect : Obligations.LoadIndirect := by
  intro w s row ea p
  have run : exec (decode w) s = .next (loadFrom (regAt 9 w) p.1 p.2) := by
    rw [decode_ldi row, regField_eq_regAt, exec, execLdi, ea9_eq_relTo]
  refine ⟨_, run, loadFrom_wroteDest _ p.1 p.2, ?plain⟩
  case plain =>
    intro plainPointer plainData
    have pointer : p = (s.cell ea, s) := memRead_plain s plainPointer
    rw [pointer]
    exact loadFrom_wroteDest_cell _ s plainData

/-! Stores. -/

/-- Settles O13: a store to the pc-relative address. -/
theorem storePcRelative : Obligations.StorePcRelative := by
  intro w s canonical row
  have run : exec (decode w) s = .next (memWrite (relTo s.pc 9 w) (s.reg (regAt 9 w)) s) := by
    rw [decode_st row, regField_eq_regAt, exec, execSt, ea9_eq_relTo]
  exact ⟨_, run, memWrite_storedCell _ _ canonical⟩

/-- Settles O15: as ST, with the base register's value in place of the pc. -/
theorem storeBasePlusOffset : Obligations.StoreBasePlusOffset := by
  intro w s canonical row
  have run : exec (decode w) s = .next (memWrite (relTo (s.reg (regAt 6 w)) 6 w) (s.reg (regAt 9 w)) s) := by
    rw [decode_str row, regField_eq_regAt, regField_eq_regAt, exec, execStr, ea6_eq_relTo]
  exact ⟨_, run, memWrite_storedCell _ _ canonical⟩

/-- Settles O17: a store through the pointer in the state the pointer read left, whose memory is still canonical
(`memRead_wf`) and whose registers are still those before (`memRead_reg`). -/
theorem storeIndirect : Obligations.StoreIndirect := by
  intro w s canonical row ea p
  have run : exec (decode w) s = .next (memWrite p.1 (s.reg (regAt 9 w)) p.2) := by
    rw [decode_sti row, regField_eq_regAt, exec, execSti, ea9_eq_relTo, memRead_reg]
  have store : StoredCell p.1 (s.reg (regAt 9 w)) p.2 (memWrite p.1 (s.reg (regAt 9 w)) p.2) :=
    memWrite_storedCell _ _ (memRead_wf ea canonical)
  refine ⟨_, run, store, ?plain⟩
  case plain =>
    intro plainPointer
    have pointer : p = (s.cell ea, s) := memRead_plain s plainPointer
    rwa [pointer] at store ⊢

/-! The address itself. -/

/-- Settles O18: the pc-relative address goes to the destination as it is. -/
theorem loadEffectiveAddress : Obligations.LoadEffectiveAddress := by
  intro w s row
  have run : exec (decode w) s = .next (writeDest (regAt 9 w) (relTo s.pc 9 w) s) := by
    rw [decode_lea row, regField_eq_regAt, exec, execLea, ea9_eq_relTo]
  exact ⟨_, run, writeDest_wroteDest _ s (BitVec.toNat_ofNat _ _)⟩

end Sys2Proof.Proofs
end

section
/-! PROOFS. The obligations of 43_control.md: JMP, RET, JSR and JSRR (R131 to R133). Each meaning ends in one `setPc`,
in the state before or in the state that the link left, so the frame is one lemma for all four (`setPc_jumped`), and a
proof of its own is left only the target. -/

namespace Sys2Proof.Proofs

open Sys2Proof.Machine Sys2Proof.Machine.Laws

/-! What moving the pc does, as the statements say it. -/

theorem onlyCore_refl (regs : List Reg) (cells : List Word) (s : State) : OnlyCore regs cells s s := by
  have env : SameEnv s s := ⟨rfl, rfl, rfl, rfl, rfl⟩
  have run : SameRun s s := ⟨rfl, rfl, rfl⟩
  exact ⟨sameRegs_of_regs_eq rfl, fun _ _ => rfl, env, run⟩

/-- Moving the pc adds nothing to what differed before: `OnlyCore` allows the pc to differ. -/
theorem setPc_jumped {regs : List Reg} {s u : State} (target : Word) (frame : OnlyCore regs [] s u)
    (cond : u.cond = s.cond) : Jumped regs target s (u.setPc target) :=
  ⟨setPc_pc u target, cond, frame⟩

theorem jumpThrough_jumped (baseR : Reg) (s : State) : Jumped [] (s.reg baseR) s (jumpThrough baseR s) :=
  setPc_jumped (s.reg baseR) (onlyCore_refl [] [] s) rfl

/-! The link of JSR and JSRR (R132, R133). -/

theorem linkR7_onlyCore (s : State) : OnlyCore [.r7] [] s (linkR7 s) := by
  have env : SameEnv s (linkR7 s) := ⟨rfl, rfl, rfl, rfl, rfl⟩
  have run : SameRun s (linkR7 s) := ⟨rfl, rfl, rfl⟩
  exact ⟨setReg_sameRegs .r7 s.pc s, fun a _ => setReg_cell s .r7 s.pc a, env, run⟩

theorem linkR7_reg_r7 (s : State) : (linkR7 s).reg .r7 = s.pc := setReg_reg_same s .r7 s.pc

/-- What JSRR reads after its link: R7 already holds the pc, every other register its value from before. -/
theorem linkR7_reg (r : Reg) (s : State) : (linkR7 s).reg r = if r = .r7 then s.pc else s.reg r := by
  split
  case isTrue isLink => rw [isLink, linkR7_reg_r7]
  case isFalse notLink => exact setReg_reg_ne s s.pc notLink

theorem linkR7_setPc_jumped (target : Word) (s : State) : Jumped [.r7] target s ((linkR7 s).setPc target) :=
  setPc_jumped target (linkR7_onlyCore s) (setReg_cond s .r7 s.pc)

theorem target11_eq_relTo (w : Word) (s : State) : target11 (bitsAt 0 11 w) s = relTo s.pc 11 w :=
  add_sext_eq_relTo s.pc w (by decide) (by decide)

/-! The obligations. -/

/-- Settles O20: JMP is one jump through its register, and the meaning of RET is that of JMP R7. -/
theorem jumpThroughRegister : Obligations.JumpThroughRegister := by
  refine ⟨?jmp, ?ret⟩
  case jmp =>
    intro w s row
    have run : exec (decode w) s = .next (jumpThrough (regAt 6 w) s) := by
      rw [decode_jmp row, regField_eq_regAt, exec, execJmp]
    exact ⟨_, run, jumpThrough_jumped _ s⟩
  case ret => exact fun s => ⟨rfl, _, rfl, jumpThrough_jumped .r7 s⟩

/-- Settles O21: the link, then the jump to the target relative to the pc before it. -/
theorem callPcRelative : Obligations.CallPcRelative := by
  intro w s row
  have run : exec (decode w) s = .next ((linkR7 s).setPc (relTo s.pc 11 w)) := by
    rw [decode_jsr row, exec, execJsr, target11_eq_relTo]
  exact ⟨_, run, linkR7_reg_r7 s, linkR7_setPc_jumped _ s⟩

/-- Settles O22: as JSR, with the target read in the state that the link left (`linkR7_reg`). -/
theorem callThroughRegister : Obligations.CallThroughRegister := by
  intro w s row
  have run : exec (decode w) s =
      .next ((linkR7 s).setPc (if regAt 6 w = .r7 then s.pc else s.reg (regAt 6 w))) := by
    rw [decode_jsrr row, regField_eq_regAt, exec, execJsrr, jumpThrough, linkR7_reg]
  exact ⟨_, run, linkR7_reg_r7 s, linkR7_setPc_jumped _ s⟩

end Sys2Proof.Proofs
end

section
/-! PROOFS. The obligations of 30_encoding.md: the decoder and the encoder (R60, R61, R66 to R72). Both are tied to one
table, `fieldsOf`: the fields that each row reads and the values it finds there. A word decodes to an instruction
exactly when it carries that instruction's fields (`decode_carries`, `decode_of_carries`), and the encoding carries
them (`encode_carries`). -/

namespace Sys2Proof.Proofs

open Sys2Proof.Machine Sys2Proof.Machine.Laws

/-- The value `value` in the bits `[lo + width - 1 : lo]` of a word. -/
structure Field where
  lo : Nat
  width : Nat
  value : BitVec width

/-- The opcode number in bits [15:12] (R65). -/
@[simp] def opcodeField (op : BitVec 4) : Field := ⟨12, 4, op⟩

/-- The register whose number is in the three bits from `lo` on (R20). -/
@[simp] def regFieldOf (lo : Nat) (r : Reg) : Field := ⟨lo, 3, r.bits⟩

/-- The fields that select the row of `i`: opcode, mode bit, trap vector (R66, R67). -/
@[simp] def rowFields : Instr → List Field
  | .br _ _ => [opcodeField config.opcodes.br]
  | .addReg _ _ _ => [opcodeField config.opcodes.add, ⟨5, 1, 0#1⟩]
  | .addImm _ _ _ => [opcodeField config.opcodes.add, ⟨5, 1, 1#1⟩]
  | .ld _ _ => [opcodeField config.opcodes.ld]
  | .st _ _ => [opcodeField config.opcodes.st]
  | .jsr _ => [opcodeField config.opcodes.jsr, ⟨11, 1, 1#1⟩]
  | .jsrr _ => [opcodeField config.opcodes.jsr, ⟨11, 1, 0#1⟩]
  | .andReg _ _ _ => [opcodeField config.opcodes.and, ⟨5, 1, 0#1⟩]
  | .andImm _ _ _ => [opcodeField config.opcodes.and, ⟨5, 1, 1#1⟩]
  | .ldr _ _ _ => [opcodeField config.opcodes.ldr]
  | .str _ _ _ => [opcodeField config.opcodes.str]
  | .rti => [opcodeField config.opcodes.rti]
  | .not _ _ => [opcodeField config.opcodes.not]
  | .ldi _ _ => [opcodeField config.opcodes.ldi]
  | .sti _ _ => [opcodeField config.opcodes.sti]
  | .jmp _ | .ret => [opcodeField config.opcodes.jmp]
  | .res => [opcodeField config.opcodes.res]
  | .lea _ _ => [opcodeField config.opcodes.lea]
  | .trapGetc => [opcodeField config.opcodes.trap, ⟨0, 8, config.tvGetc⟩]
  | .trapOut => [opcodeField config.opcodes.trap, ⟨0, 8, config.tvOut⟩]
  | .trapPuts => [opcodeField config.opcodes.trap, ⟨0, 8, config.tvPuts⟩]
  | .trapIn => [opcodeField config.opcodes.trap, ⟨0, 8, config.tvIn⟩]
  | .trapPutsp => [opcodeField config.opcodes.trap, ⟨0, 8, config.tvPutsp⟩]
  | .trapHalt => [opcodeField config.opcodes.trap, ⟨0, 8, config.tvHalt⟩]
  | .trap v => [opcodeField config.opcodes.trap, ⟨0, 8, v⟩]

/-- The fields that hold the operands of `i` (R66). -/
@[simp] def operandFields : Instr → List Field
  | .br nzp off => [⟨9, 3, nzp⟩, ⟨0, 9, off⟩]
  | .addReg dr sr1 sr2 | .andReg dr sr1 sr2 => [regFieldOf 9 dr, regFieldOf 6 sr1, regFieldOf 0 sr2]
  | .addImm dr sr1 imm | .andImm dr sr1 imm => [regFieldOf 9 dr, regFieldOf 6 sr1, ⟨0, 5, imm⟩]
  | .ld r off | .st r off | .ldi r off | .sti r off | .lea r off => [regFieldOf 9 r, ⟨0, 9, off⟩]
  | .jsr off => [⟨0, 11, off⟩]
  | .ldr r base off | .str r base off => [regFieldOf 9 r, regFieldOf 6 base, ⟨0, 6, off⟩]
  | .not dr sr => [regFieldOf 9 dr, regFieldOf 6 sr]
  | .jmp base | .jsrr base => [regFieldOf 6 base]
  | .ret => [regFieldOf 6 .r7]
  | .rti | .res | .trapGetc | .trapOut | .trapPuts | .trapIn | .trapPutsp | .trapHalt | .trap _ => []

/-- All fields that the row of `i` reads, with the values that are those of `i`. -/
@[simp] def fieldsOf (i : Instr) : List Field := rowFields i ++ operandFields i

/-- The word has the given value in every field. -/
def Carries (w : Word) (fs : List Field) : Prop := ∀ f ∈ fs, bitsAt f.lo f.width w = f.value

@[simp] theorem carries_nil (w : Word) : Carries w [] := List.forall_mem_nil _

@[simp] theorem carries_cons (w : Word) (f : Field) (fs : List Field) :
    Carries w (f :: fs) ↔ bitsAt f.lo f.width w = f.value ∧ Carries w fs :=
  List.forall_mem_cons

/-! Fields, masks and matches. -/

/-- The mask of the bits of some fields. -/
def maskOf (fs : List Field) : Word := fs.foldr (fun f m => (BitVec.allOnes f.width).setWidth 16 <<< f.lo ||| m) 0#16

/-- The word with the fields' values and zeros elsewhere. -/
def matchOf (fs : List Field) : Word := fs.foldr (fun f m => f.value.setWidth 16 <<< f.lo ||| m) 0#16

theorem and_fieldMask (lo n : Nat) (w : Word) :
    w &&& (BitVec.allOnes n).setWidth 16 <<< lo = (bitsAt lo n w).setWidth 16 <<< lo := by
  apply BitVec.eq_of_getLsbD_eq
  intro j hj
  by_cases below : j < lo
  · simp [below]
  · have back : lo + (j - lo) = j := by omega
    simp [bitsAt, below, back, hj, Bool.and_comm]

/-- The bits of a word under the fields' mask are the fields' values. -/
theorem and_maskOf {w : Word} {fs : List Field} (carries : Carries w fs) : w &&& maskOf fs = matchOf fs := by
  induction fs with
  | nil => exact BitVec.and_zero
  | cons f fs ih =>
    rw [carries_cons] at carries
    obtain ⟨first, rest⟩ := carries
    have later := ih rest
    simp only [maskOf, matchOf, List.foldr_cons] at later ⊢
    rw [BitVec.and_or_distrib_left, and_fieldMask, first, later]

/-- A mask that covers the fields leaves them as they are. -/
theorem carries_and_iff {w m : Word} {fs : List Field}
    (covered : ∀ f ∈ fs, bitsAt f.lo f.width m = BitVec.allOnes f.width) : Carries (w &&& m) fs ↔ Carries w fs :=
  forall₂_congr fun f listed => by rw [bitsAt_of_mask (w := w) rfl (covered f listed)]

theorem readBits_eq_maskOf (i : Instr) : i.readBits = maskOf (fieldsOf i) := by
  cases i with
  | _ => simp [maskOf, Instr.readBits]

theorem readBits_covers (i : Instr) : ∀ f ∈ fieldsOf i, bitsAt f.lo f.width i.readBits = BitVec.allOnes f.width := by
  cases i with
  | _ => simp [Instr.readBits, bitsAt]

/-! The encoder and the decoder by the table. -/

theorem encode_carries (i : Instr) : Carries (encode i) (fieldsOf i) := by
  cases i with
  | _ =>
    simp (disch := decide) only [fieldsOf, rowFields, operandFields, opcodeField, regFieldOf, List.cons_append,
      List.nil_append, carries_cons, carries_nil, encode, encodeJmp, encodeTrap, bitsAt,
      BitVec.extractLsb'_append_eq_of_le, BitVec.extractLsb'_append_eq_of_add_le, Nat.reduceSub,
      BitVec.extractLsb'_eq_self, BitVec.reduceExtractLsb', and_true]

theorem decodeTrap_of_not_routine {v : Byte} (other : isRoutineVector v = false) : decodeTrap v = .trap v := by
  simp only [isRoutineVector, Bool.or_eq_false_iff, beq_eq_false_iff_ne] at other
  simp [decodeTrap, other]

/-- A word that carries the fields of a well-formed instruction decodes to it. -/
theorem decode_of_carries {i : Instr} {w : Word} (wf : i.wellFormed = true) (carries : Carries w (fieldsOf i)) :
    decode w = i := by
  cases i
  case ret => cases wf
  all_goals simp only [fieldsOf, rowFields, operandFields, opcodeField, regFieldOf, List.cons_append, List.nil_append,
    carries_cons, carries_nil, and_true] at carries
  case trap v =>
    simp only [Instr.wellFormed, Bool.not_eq_true'] at wf
    simp [decode, carries, config, opcodes, decodeTrap_of_not_routine wf]
  case trapGetc | trapOut | trapPuts | trapIn | trapPutsp | trapHalt =>
    simp only [decode, carries]
    rfl
  all_goals simp [decode, carries, regField, config, opcodes]

theorem decodeTrap_carries {w : Word} (op : bitsAt 12 4 w = config.opcodes.trap) :
    Carries w (fieldsOf (decodeTrap (bitsAt 0 8 w))) := by
  fun_cases decodeTrap (bitsAt 0 8 w) with
  | _ => simp [*]

/-- A word carries the fields of the instruction it decodes to. -/
theorem decode_carries (w : Word) : Carries w (fieldsOf (decode w)) := by
  fun_cases decode w
  case case3 immediate | case9 immediate =>
    have mode : bitsAt 5 1 w = 1#1 := (BitVec.eq_zero_or_eq_one _).resolve_left immediate
    simp [regField, mode]
    assumption
  case case7 register =>
    have mode : bitsAt 11 1 w = 0#1 := (BitVec.eq_zero_or_eq_one _).resolve_right register
    simp [regField, mode]
    assumption
  case case19 =>
    refine decodeTrap_carries ?op
    simp +zetaDelta only [config, opcodes] at *
    bv_omega
  all_goals
    simp [regField, *]
    assumption

theorem decodeTrap_wellFormed (v : Byte) : (decodeTrap v).wellFormed = true := by
  fun_cases decodeTrap v with
  | case7 => simp [Instr.wellFormed, isRoutineVector, *]
  | _ => rfl

theorem decode_wellFormed (w : Word) : (decode w).wellFormed = true := by
  fun_cases decode w with
  | case19 => exact decodeTrap_wellFormed _
  | _ => rfl

theorem decode_ne_ret (w : Word) : decode w ≠ .ret := by
  intro isRet
  have wf := decode_wellFormed w
  rw [isRet] at wf
  cases wf

/-- A word that agrees with the encoding on the bits read decodes to the instruction. -/
theorem decode_of_agree {i : Instr} {w : Word} (wf : i.wellFormed = true)
    (agree : w &&& i.readBits = encode i &&& i.readBits) : decode w = i := by
  refine decode_of_carries wf ?_
  rw [← carries_and_iff (readBits_covers i), agree, carries_and_iff (readBits_covers i)]
  exact encode_carries i

/-- The encoding of what a word decodes to agrees with the word on the bits read. -/
theorem encode_decode_agree (w : Word) : encode (decode w) &&& (decode w).readBits = w &&& (decode w).readBits := by
  rw [readBits_eq_maskOf, and_maskOf (encode_carries _), and_maskOf (decode_carries w)]

/-- The word of an instruction is its row's match under its row's mask (R66). -/
theorem row_of_decode {w : Word} {i : Instr} (decoded : decode w = i) :
    w &&& maskOf (rowFields i) = matchOf (rowFields i) := by
  have carries := decode_carries w
  rw [decoded] at carries
  exact and_maskOf fun f listed => carries f (List.mem_append_left _ listed)

/-! The rows that `Laws` does not have, by match and mask (R67, R71). -/

section Rows

variable {w : Word}

theorem decode_trapGetc (row : w &&& 0xF0FF#16 = 0xF020#16) : decode w = .trapGetc := decode_of_agree rfl row

theorem decode_trapOut (row : w &&& 0xF0FF#16 = 0xF021#16) : decode w = .trapOut := decode_of_agree rfl row

theorem decode_trapPuts (row : w &&& 0xF0FF#16 = 0xF022#16) : decode w = .trapPuts := decode_of_agree rfl row

theorem decode_trapIn (row : w &&& 0xF0FF#16 = 0xF023#16) : decode w = .trapIn := decode_of_agree rfl row

theorem decode_trapPutsp (row : w &&& 0xF0FF#16 = 0xF024#16) : decode w = .trapPutsp := decode_of_agree rfl row

theorem decode_trapHalt (row : w &&& 0xF0FF#16 = 0xF025#16) : decode w = .trapHalt := decode_of_agree rfl row

theorem decode_jmp_r7 (row : w &&& 0xF1C0#16 = 0xC1C0#16) : decode w = .jmp .r7 := decode_of_agree rfl row

end Rows

/-! The obligations. -/

/-- Settles O2, by running the decoder on the seven words. -/
theorem sampleWordsDecode : Obligations.SampleWordsDecode := by
  unfold Obligations.SampleWordsDecode
  decide

/-- Settles O3: the encoding carries the instruction's fields, and a word that carries them decodes to it. -/
theorem encodeThenDecode : Obligations.EncodeThenDecode :=
  ⟨fun i wf => decode_of_carries wf (encode_carries i), decode_of_carries rfl (encode_carries (.jmp .r7))⟩

/-- Settles O4: the word and the encoding of what it decodes to carry the same fields, which are all that is read. -/
theorem decodeThenEncode : Obligations.DecodeThenEncode :=
  fun w => ⟨decode_wellFormed w, encode_decode_agree w⟩

/-- Settles O6: the second word too agrees with the encoding of what the first decodes to. -/
theorem ignoredBitsChangeNothing : Obligations.IgnoredBitsChangeNothing := by
  intro w v agree
  exact decode_of_agree (decode_wellFormed w) (agree.symm.trans (encode_decode_agree w).symm)

/-- Settles O5: `decode_br` and its like say what the words of a row decode to, `row_of_decode` that no other word
decodes to the row's instruction. -/
theorem opcodeMapRows : Obligations.OpcodeMapRows := by
  intro w
  refine ⟨⟨fun row => ⟨_, _, decode_br row⟩, fun ⟨_, _, decoded⟩ => row_of_decode decoded⟩,
    ⟨fun row => ⟨_, _, _, decode_addReg row⟩, fun ⟨_, _, _, decoded⟩ => row_of_decode decoded⟩,
    ⟨fun row => ⟨_, _, _, decode_addImm row⟩, fun ⟨_, _, _, decoded⟩ => row_of_decode decoded⟩,
    ⟨fun row => ⟨_, _, decode_ld row⟩, fun ⟨_, _, decoded⟩ => row_of_decode decoded⟩,
    ⟨fun row => ⟨_, _, decode_st row⟩, fun ⟨_, _, decoded⟩ => row_of_decode decoded⟩,
    ⟨fun row => ⟨_, decode_jsr row⟩, fun ⟨_, decoded⟩ => row_of_decode decoded⟩,
    ⟨fun row => ⟨_, decode_jsrr row⟩, fun ⟨_, decoded⟩ => row_of_decode decoded⟩,
    ⟨fun row => ⟨_, _, _, decode_andReg row⟩, fun ⟨_, _, _, decoded⟩ => row_of_decode decoded⟩,
    ⟨fun row => ⟨_, _, _, decode_andImm row⟩, fun ⟨_, _, _, decoded⟩ => row_of_decode decoded⟩,
    ⟨fun row => ⟨_, _, _, decode_ldr row⟩, fun ⟨_, _, _, decoded⟩ => row_of_decode decoded⟩,
    ⟨fun row => ⟨_, _, _, decode_str row⟩, fun ⟨_, _, _, decoded⟩ => row_of_decode decoded⟩,
    ⟨decode_rti, row_of_decode⟩,
    ⟨fun row => ⟨_, _, decode_not row⟩, fun ⟨_, _, decoded⟩ => row_of_decode decoded⟩,
    ⟨fun row => ⟨_, _, decode_ldi row⟩, fun ⟨_, _, decoded⟩ => row_of_decode decoded⟩,
    ⟨fun row => ⟨_, _, decode_sti row⟩, fun ⟨_, _, decoded⟩ => row_of_decode decoded⟩,
    ⟨fun row => ⟨_, decode_jmp row⟩, fun ⟨_, decoded⟩ => row_of_decode decoded⟩,
    ⟨decode_jmp_r7, fun decoded => ?jmpR7⟩,
    ⟨decode_res, row_of_decode⟩,
    ⟨fun row => ⟨_, _, decode_lea row⟩, fun ⟨_, _, decoded⟩ => row_of_decode decoded⟩,
    ⟨decode_trapGetc, row_of_decode⟩, ⟨decode_trapOut, row_of_decode⟩, ⟨decode_trapPuts, row_of_decode⟩,
    ⟨decode_trapIn, row_of_decode⟩, ⟨decode_trapPutsp, row_of_decode⟩, ⟨decode_trapHalt, row_of_decode⟩,
    decode_ne_ret w⟩
  case jmpR7 =>
    have agree := encode_decode_agree w
    rw [decoded] at agree
    exact agree.symm

end Sys2Proof.Proofs
end

section
/-! PROOFS. What every instruction and every step can do to the run state, the console and memory, said once for the
whole-machine rules. Most instructions only read memory, store and write registers, pc and flags (`exec_quiet`); the
two reserved opcodes and the six routines are taken one by one. -/

namespace Sys2Proof.Proofs

open Sys2Proof.Machine Sys2Proof.Machine.Laws

/-! The two console streams. -/

/-- The output has grown at its end, and input was taken from the head. -/
structure Streams (s t : State) : Prop where
  out : s.conOut <+: t.conOut
  input : t.conIn <:+ s.conIn

theorem Streams.of_eq {s t : State} (out : t.conOut = s.conOut) (input : t.conIn = s.conIn) : Streams s t :=
  ⟨out ▸ List.prefix_rfl, input ▸ List.suffix_rfl⟩

theorem Streams.trans {s t u : State} (first : Streams s t) (second : Streams t u) : Streams s u :=
  ⟨first.out.trans second.out, second.input.trans first.input⟩

theorem writeBytes_streams (bs : List Byte) (s : State) : Streams s (writeBytes bs s) :=
  ⟨List.prefix_append _ _, List.suffix_rfl⟩

theorem memRead_streams (a : Word) (s : State) : Streams s (memRead a s).2 := by
  refine ⟨(memRead_conOut a s).symm ▸ List.prefix_rfl, ?input⟩
  case input =>
    obtain same | ⟨c, taken⟩ := memRead_conIn a s
    · exact same ▸ List.suffix_rfl
    · exact taken ▸ List.suffix_cons c _

theorem requestChar_streams {w : Held} {resume : Byte → State → State} {s : State}
    (takes : ∀ c u, Streams u (resume c u)) : Streams s (requestChar w resume s) := by
  refine requestChar_induction (P := Streams s) (.of_eq rfl rfl) ?byte (fun _ => .of_eq rfl rfl)
  case byte =>
    intro c rest pending
    have taken : Streams s { s with held := .none, conIn := rest } :=
      ⟨List.prefix_rfl, pending ▸ List.suffix_cons c rest⟩
    exact taken.trans (takes c _)

theorem awaitGetc_streams (s : State) : Streams s (awaitGetc s) :=
  requestChar_streams (resume := getcTakes) fun _ _ => .of_eq rfl rfl

theorem inTakes_streams (c : Byte) (s : State) : Streams s (inTakes c s) := by
  exact .trans (writeBytes_streams [c] s) (.trans (writeBytes_streams [config.newline] _) (.of_eq rfl rfl))

theorem awaitIn_streams (s : State) : Streams s (awaitIn s) := requestChar_streams inTakes_streams

theorem putString_streams (routine : Held) (emit : Word → List Byte) (s : State) :
    Streams s (putString routine emit s) := by
  obtain ⟨-, -, -, -, -, -, -, -, -, ⟨out, written⟩, taken, pending⟩ := putString_frame routine emit s
  exact ⟨⟨out, written.symm⟩, ⟨taken, pending.symm⟩⟩

/-! The instructions that only read memory, store, and write registers, pc and flags. -/

/-- Nothing written to the console, nothing of the run state changed, memory still canonical. -/
structure Quiet (s t : State) : Prop where
  run : SameRun s t
  out : t.conOut = s.conOut
  streams : Streams s t
  wf : s.mem.wf = true → t.mem.wf = true

theorem Quiet.trans {s t u : State} (first : Quiet s t) (second : Quiet t u) : Quiet s u where
  run := ⟨second.run.1.trans first.run.1, second.run.2.1.trans first.run.2.1, second.run.2.2.trans first.run.2.2⟩
  out := second.out.trans first.out
  streams := first.streams.trans second.streams
  wf canonical := second.wf (first.wf canonical)

theorem memRead_quiet (a : Word) (s : State) : Quiet s (memRead a s).2 where
  run := ⟨memRead_runState a s, memRead_haltCause a s, memRead_held a s⟩
  out := memRead_conOut a s
  streams := memRead_streams a s
  wf := memRead_wf a

theorem memWrite_quiet (a v : Word) (s : State) : Quiet s (memWrite a v s) where
  run := ⟨rfl, rfl, rfl⟩
  out := rfl
  streams := .of_eq rfl rfl
  wf := setCell_wf a v

/-- An update of registers, pc and flags. -/
theorem core_quiet (regs : Regs) (pc : Word) (cond : BitVec 3) (s : State) :
    Quiet s { s with regs := regs, pc := pc, cond := cond } where
  run := ⟨rfl, rfl, rfl⟩
  out := rfl
  streams := .of_eq rfl rfl
  wf canonical := canonical

theorem loadFrom_quiet (dr : Reg) (ea : Word) (s : State) : Quiet s (loadFrom dr ea s) :=
  (memRead_quiet ea s).trans (core_quiet _ _ _ _)

/-- The reserved opcodes and the six routines: the instructions that can end the run, wait, or use the console. -/
def endsOrTalks : Instr → Bool
  | .rti | .res | .trapGetc | .trapOut | .trapPuts | .trapIn | .trapPutsp | .trapHalt => true
  | _ => false

theorem exec_quiet {i : Instr} {s t : State} (run : exec i s = .next t) (ordinary : endsOrTalks i = false) :
    Quiet s t := by
  cases i with
  | br nzp offset9 =>
    cases run
    split
    · exact core_quiet _ _ _ s
    · exact core_quiet _ _ _ s
  | addReg | addImm | andReg | andImm | not | lea | jsr | jsrr | jmp | ret | trap =>
    cases run
    exact core_quiet _ _ _ s
  | ld | ldr =>
    cases run
    exact loadFrom_quiet _ _ s
  | ldi =>
    cases run
    exact (memRead_quiet _ s).trans (loadFrom_quiet _ _ _)
  | st | str =>
    cases run
    exact memWrite_quiet _ _ s
  | sti =>
    cases run
    exact (memRead_quiet _ s).trans (memWrite_quiet _ _ _)
  | _ => cases ordinary

theorem fetch_quiet (s : State) : Quiet s (fetch s).2 :=
  (memRead_quiet s.pc s).trans (core_quiet _ (s.pc + 1) _ _)

/-! The run state. -/

/-- The instruction leaves the core inside the routine `w`: an input routine without a byte and without a request, or
an output routine after a lap (R85, R185). -/
def EntersRoutine (i : Instr) (s : State) (w : Held) : Prop :=
  (((i = .trapGetc ∧ w = .getc) ∨ (i = .trapIn ∧ w = .inEcho)) ∧ s.conIn = [] ∧ s.shutdownReq = false) ∨
    (i = .trapPuts ∧ w = .puts) ∨ (i = .trapPutsp ∧ w = .putsp)

/-- The instruction ends the run for `cause` (R30, R171, R177). -/
def EndsRun (i : Instr) (s : State) (cause : HaltCause) : Prop :=
  (s.shutdownReq = true ∧ cause = .shutdown) ∨ (i = .trapHalt ∧ cause = .haltTrap) ∨
    (i = .rti ∧ cause = .reservedRti) ∨ (i = .res ∧ cause = .reservedRes)

/-- All that an instruction can do to the run state, its cause and `held`. -/
inductive RunChange (i : Instr) (s t : State) : Prop where
  | goesOn (state : t.runState = s.runState) (cause : t.haltCause = s.haltCause)
      (held : t.held = s.held ∨ t.held = .none)
  | enters (state : t.runState = s.runState) (cause : t.haltCause = s.haltCause) (entry : EntersRoutine i s t.held)
  | ends (state : t.runState = .halted) (event : EndsRun i s t.haltCause) (held : t.held = s.held ∨ t.held = .none)

theorem requestChar_runChange {i : Instr} {w : Held} {resume : Byte → State → State} {s u : State}
    (entry : u.conIn = [] → u.shutdownReq = false → EntersRoutine i s w)
    (request : u.shutdownReq = s.shutdownReq) (same : SameRun s u)
    (takes : ∀ c v, SameRun v (resume c v)) : RunChange i s (requestChar w resume u) := by
  obtain ⟨state, cause, held⟩ := same
  obtain ⟨req, result⟩ | ⟨c, rest, -, -, result⟩ | ⟨noReq, noByte, result⟩ := requestChar_cases w resume u
  · rw [result]
    exact .ends rfl (.inl ⟨request ▸ req, rfl⟩) (.inr rfl)
  · rw [result]
    obtain ⟨state', cause', held'⟩ := takes c { u with held := .none, conIn := rest }
    exact .goesOn (state'.trans state) (cause'.trans cause) (.inr held')
  · rw [result]
    exact .enters state cause (entry noByte noReq)

theorem putString_runChange {i : Instr} {routine : Held} (emit : Word → List Byte) (s : State)
    (entry : EntersRoutine i s routine) : RunChange i s (putString routine emit s) := by
  obtain ⟨-, -, -, state, cause, held, -⟩ := putString_frame routine emit s
  obtain same | entered := held
  · exact .goesOn state cause (.inl same)
  · exact .enters state cause (by rwa [entered])

theorem exec_runChange {i : Instr} {s t : State} (run : exec i s = .next t) : RunChange i s t := by
  cases kind : endsOrTalks i with
  | false =>
    obtain ⟨state, cause, held⟩ := (exec_quiet run kind).run
    exact .goesOn state cause (.inl held)
  | true =>
    cases i with
    | rti =>
      cases run
      exact .ends rfl (.inr (.inr (.inl ⟨rfl, rfl⟩))) (.inl rfl)
    | res =>
      cases run
      exact .ends rfl (.inr (.inr (.inr ⟨rfl, rfl⟩))) (.inl rfl)
    | trapHalt =>
      cases run
      exact .ends rfl (.inr (.inl ⟨rfl, rfl⟩)) (.inl rfl)
    | trapOut =>
      cases run
      exact .goesOn rfl rfl (.inl rfl)
    | trapGetc =>
      cases run
      exact requestChar_runChange (fun noByte noReq => .inl ⟨.inl ⟨rfl, rfl⟩, noByte, noReq⟩) rfl ⟨rfl, rfl, rfl⟩
        fun _ _ => ⟨rfl, rfl, rfl⟩
    | trapIn =>
      cases run
      exact requestChar_runChange (fun noByte noReq => .inl ⟨.inr ⟨rfl, rfl⟩, noByte, noReq⟩) rfl ⟨rfl, rfl, rfl⟩
        fun _ _ => ⟨rfl, rfl, rfl⟩
    | trapPuts =>
      cases run
      exact putString_runChange putsBytes s (.inr (.inl ⟨rfl, rfl⟩))
    | trapPutsp =>
      cases run
      exact putString_runChange putspBytes s (.inr (.inr ⟨rfl, rfl⟩))
    | _ => cases kind

/-! The streams and memory, for every instruction and every step. -/

theorem exec_streams {i : Instr} {s t : State} (run : exec i s = .next t) : Streams s t := by
  cases kind : endsOrTalks i with
  | false => exact (exec_quiet run kind).streams
  | true =>
    cases i with
    | rti | res =>
      cases run
      exact .of_eq rfl rfl
    | trapOut | trapHalt =>
      cases run
      exact (writeBytes_streams _ s).trans (.of_eq rfl rfl)
    | trapGetc =>
      cases run
      exact awaitGetc_streams s
    | trapIn =>
      cases run
      exact (writeBytes_streams config.inPrompt s).trans (awaitIn_streams _)
    | trapPuts | trapPutsp =>
      cases run
      exact putString_streams _ _ s
    | _ => cases kind

theorem awaitGetc_wf {s : State} (canonical : s.mem.wf = true) : (awaitGetc s).mem.wf = true :=
  requestChar_induction (P := fun t => t.mem.wf = true) canonical (fun _ _ _ => canonical) (fun _ => canonical)

theorem awaitIn_wf {s : State} (canonical : s.mem.wf = true) : (awaitIn s).mem.wf = true :=
  requestChar_induction (P := fun t => t.mem.wf = true) canonical (fun _ _ _ => canonical) (fun _ => canonical)

theorem putString_wf (routine : Held) (emit : Word → List Byte) {s : State} (canonical : s.mem.wf = true) :
    (putString routine emit s).mem.wf = true := by
  obtain ⟨-, -, -, -, -, -, -, -, wf, -⟩ := putString_frame routine emit s
  exact wf canonical

theorem exec_wf {i : Instr} {s t : State} (run : exec i s = .next t) (canonical : s.mem.wf = true) :
    t.mem.wf = true := by
  cases kind : endsOrTalks i with
  | false => exact (exec_quiet run kind).wf canonical
  | true =>
    cases i with
    | rti | res | trapOut | trapHalt =>
      cases run
      exact canonical
    | trapGetc =>
      cases run
      exact awaitGetc_wf canonical
    | trapIn =>
      cases run
      exact awaitIn_wf canonical
    | trapPuts | trapPutsp =>
      cases run
      exact putString_wf _ _ canonical
    | _ => cases kind

theorem step_streams {s t : State} (stepped : step s = .next t) : Streams s t := by
  have lapped {u : State} (lap : Streams { s with held := .none } u) : Streams s u := ⟨lap.out, lap.input⟩
  obtain ⟨-, rfl⟩ | ⟨-, -, rfl⟩ | ⟨-, -, rfl⟩ | ⟨-, -, rfl⟩ | ⟨-, -, rfl⟩ | ⟨-, -, -, rfl⟩ | ⟨-, -, -, run⟩ :=
    step_cases stepped
  · exact .of_eq rfl rfl
  · exact awaitGetc_streams s
  · exact awaitIn_streams s
  · exact lapped (putString_streams .puts putsBytes _)
  · exact lapped (putString_streams .putsp putspBytes _)
  · exact .of_eq rfl rfl
  · exact (fetch_quiet s).streams.trans (exec_streams run)

theorem step_wf {s t : State} (stepped : step s = .next t) (canonical : s.mem.wf = true) : t.mem.wf = true := by
  obtain ⟨-, rfl⟩ | ⟨-, -, rfl⟩ | ⟨-, -, rfl⟩ | ⟨-, -, rfl⟩ | ⟨-, -, rfl⟩ | ⟨-, -, -, rfl⟩ | ⟨-, -, -, run⟩ :=
    step_cases stepped
  · exact canonical
  · exact awaitGetc_wf canonical
  · exact awaitIn_wf canonical
  · exact putString_wf .puts putsBytes canonical
  · exact putString_wf .putsp putspBytes canonical
  · exact canonical
  · exact exec_wf run ((fetch_quiet s).wf canonical)

end Sys2Proof.Proofs
end

section
/-! PROOFS. The obligations of 40_execution_cycle.md section 1 and of 10_state.md sections 4 and 5: the step, and the
invariant that it keeps. -/

namespace Sys2Proof.Proofs

open Sys2Proof.Machine Sys2Proof.Machine.Laws

/-! The step. -/

theorem step_halted {s : State} (halted : s.runState = .halted) : step s = .next s := by
  rw [step, cycle, halted]

/-- The step of a running core between instructions (R84). -/
theorem step_between {s : State} (running : s.runState = .running) (between : s.held = .none) :
    step s = beginStep s := by
  rw [step, cycle, running]
  simp only [between]

theorem step_ready {s : State} (running : s.runState = .running) (between : s.held = .none)
    (noReq : s.shutdownReq = false) : step s = exec (decode (memRead s.pc s).1) ((memRead s.pc s).2.setPc (s.pc + 1)) := by
  rw [step_between running between, beginStep, noReq]
  rfl

/-- Settles O40: the fetch is a MemRead at the pc, plain away from KBSR_ADDR. -/
theorem stepRunsDecodedInstruction : Obligations.StepRunsDecodedInstruction := by
  intro s running between noReq r
  have stepped : step s = exec (decode r.1) (r.2.setPc (s.pc + 1)) := step_ready running between noReq
  refine ⟨stepped, ?plain⟩
  case plain =>
    intro plainFetch
    have read : r = (s.cell s.pc, s) := memRead_plain s plainFetch
    rwa [read] at stepped

/-- Settles O41: the request is sampled before the fetch, and a halted core stays as it is. -/
theorem shutdownAndHaltedRunNothing : Obligations.ShutdownAndHaltedRunNothing := by
  intro s
  refine ⟨?request, step_halted⟩
  case request =>
    intro running between req
    have stepped : step s = .next (halt .shutdown s) := by
      rw [step_between running between, beginStep, req]
      rfl
    exact ⟨_, stepped, ⟨rfl, rfl, rfl, rfl, fun _ _ => rfl, fun _ _ => rfl⟩, ⟨rfl, rfl, rfl, rfl, rfl⟩, between⟩

theorem exec_next (i : Instr) (s : State) : ∃ t, exec i s = .next t := by
  cases i with
  | _ => exact ⟨_, rfl⟩

/-- Settles O46: a core that is not running an instruction answers a next state, and so does every instruction. -/
theorem everyStepGivesNextState : Obligations.EveryStepGivesNextState := by
  intro s
  rw [step, cycle]
  cases s.runState with
  | halted => exact ⟨_, rfl⟩
  | running =>
    cases s.held with
    | none =>
      simp only [beginStep]
      split
      · exact ⟨_, rfl⟩
      · exact exec_next _ _
    | getc | inEcho | puts | putsp => exact ⟨_, rfl⟩

/-! The invariant, part by part. -/

/-- `cond` has one of the values it can ever take (R26). -/
def LegalCond (s : State) : Prop := s.cond = 0b000#3 ∨ s.flagsOneHot

/-- `halt_cause` is NONE exactly while running, and only a running core is inside a routine (R30, R185). -/
def LegalRun (s : State) : Prop :=
  (s.haltCause = .none ↔ s.runState = .running) ∧ (s.held ≠ .none → s.runState = .running)

theorem inv_iff {s : State} : s.Inv ↔ s.mem.wf = true ∧ LegalCond s ∧ LegalRun s :=
  ⟨fun inv => ⟨inv.memory, inv.flags, inv.cause, inv.unfinished⟩,
    fun ⟨memory, flags, cause, unfinished⟩ => ⟨memory, flags, cause, unfinished⟩⟩

theorem exec_cond {i : Instr} {s t : State} (run : exec i s = .next t) : t.cond = s.cond ∨ t.flagsOneHot := by
  cases sets : i.setsFlags with
  | true => exact .inr (exec_flagsOneHot_of_setsFlags run sets)
  | false => exact .inl (exec_of_not_setsFlags run sets).1

theorem step_cond {s t : State} (stepped : step s = .next t) : t.cond = s.cond ∨ t.flagsOneHot := by
  obtain ⟨-, rfl⟩ | ⟨-, -, rfl⟩ | ⟨-, -, rfl⟩ | ⟨-, -, rfl⟩ | ⟨-, -, rfl⟩ | ⟨-, -, -, rfl⟩ | ⟨-, -, -, run⟩ :=
    step_cases stepped
  · exact .inl rfl
  · exact .inl (awaitGetc_cond s)
  · exact .inl (awaitIn_cond s)
  · exact .inl (putString_cond .puts putsBytes _)
  · exact .inl (putString_cond .putsp putspBytes _)
  · exact .inl rfl
  · exact (exec_cond run).imp_left fun same => same.trans (fetch_cond s)

theorem step_keeps_legalCond {s t : State} (stepped : step s = .next t) (legal : LegalCond s) : LegalCond t := by
  obtain same | oneHot := step_cond stepped
  · exact legal.imp (fun unset => same.trans unset) (fun oneHot => flagsOneHot_of_cond_eq oneHot same)
  · exact .inr oneHot

theorem legalRun_of_running {s : State} (running : s.runState = .running) (cause : s.haltCause = .none) :
    LegalRun s :=
  ⟨iff_of_true cause running, fun _ => running⟩

theorem legalRun_of_halted {s : State} (halted : s.runState = .halted) (cause : s.haltCause ≠ .none)
    (between : s.held = .none) : LegalRun s :=
  ⟨iff_of_false cause (by simp [halted]), fun inside => absurd between inside⟩

/-- Evaluating the wait ends the run with cause SHUTDOWN and the wait, or leaves the core running. -/
theorem requestChar_legalRun {w : Held} {resume : Byte → State → State} {s : State}
    (running : s.runState = .running) (cause : s.haltCause = .none) (takes : ∀ c u, SameRun u (resume c u)) :
    LegalRun (requestChar w resume s) := by
  refine requestChar_induction (legalRun_of_halted rfl (by simp) rfl) ?byte
    (fun _ => legalRun_of_running running cause)
  case byte =>
    intro c rest _
    obtain ⟨state', cause', -⟩ := takes c { s with held := .none, conIn := rest }
    exact legalRun_of_running (state'.trans running) (cause'.trans cause)

theorem putString_legalRun (routine : Held) (emit : Word → List Byte) {s : State} (running : s.runState = .running)
    (cause : s.haltCause = .none) : LegalRun (putString routine emit s) := by
  obtain ⟨-, -, -, state', cause', -⟩ := putString_frame routine emit s
  exact legalRun_of_running (state'.trans running) (cause'.trans cause)

theorem endsRun_cause {i : Instr} {s : State} {cause : HaltCause} (event : EndsRun i s cause) : cause ≠ .none := by
  obtain ⟨-, rfl⟩ | ⟨-, rfl⟩ | ⟨-, rfl⟩ | ⟨-, rfl⟩ := event
  all_goals simp

/-- An instruction of a running core goes on, enters a routine, or ends the run with a cause and outside of any. -/
theorem exec_legalRun {i : Instr} {s t : State} (run : exec i s = .next t) (running : s.runState = .running)
    (cause : s.haltCause = .none) (between : s.held = .none) : LegalRun t := by
  cases exec_runChange run with
  | goesOn state' cause' | enters state' cause' =>
    exact legalRun_of_running (state'.trans running) (cause'.trans cause)
  | ends halted event held =>
    exact legalRun_of_halted halted (endsRun_cause event) (held.elim (fun same => same.trans between) id)

theorem step_keeps_legalRun {s t : State} (stepped : step s = .next t) (legal : LegalRun s) : LegalRun t := by
  have cause (running : s.runState = .running) : s.haltCause = .none := legal.1.mpr running
  obtain ⟨-, rfl⟩ | ⟨running, -, rfl⟩ | ⟨running, -, rfl⟩ | ⟨running, -, rfl⟩ | ⟨running, -, rfl⟩ |
    ⟨-, between, -, rfl⟩ | ⟨running, between, -, run⟩ := step_cases stepped
  · exact legal
  · exact requestChar_legalRun running (cause running) fun _ _ => ⟨rfl, rfl, rfl⟩
  · exact requestChar_legalRun running (cause running) fun _ _ => ⟨rfl, rfl, rfl⟩
  · exact putString_legalRun .puts putsBytes running (cause running)
  · exact putString_legalRun .putsp putspBytes running (cause running)
  · exact legalRun_of_halted rfl (by simp) between
  · obtain ⟨state', cause', held'⟩ := (fetch_quiet s).run
    exact exec_legalRun run (state'.trans running) (cause'.trans (cause running)) (held'.trans between)

/-! The invariant. -/

theorem step_keeps_inv {s t : State} (inv : s.Inv) (stepped : step s = .next t) : t.Inv := by
  obtain ⟨memory, flags, run⟩ := inv_iff.mp inv
  exact inv_iff.mpr
    ⟨step_wf stepped memory, step_keeps_legalCond stepped flags, step_keeps_legalRun stepped run⟩

theorem reset_inv : State.reset.Inv :=
  inv_iff.mpr ⟨reset_mem_wf, .inl rfl, legalRun_of_running rfl rfl⟩

/-- The loader stores words and does nothing else. -/
theorem loadWords_eq (a : Word) (ws : List Word) (s : State) :
    loadWords a ws s = { s with mem := (loadWords a ws s).mem } := by
  induction ws generalizing a s with
  | nil => rfl
  | cons w ws ih => exact ih (a + 1) (s.setCell a w)

theorem loadWords_wf (a : Word) (ws : List Word) {s : State} (canonical : s.mem.wf = true) :
    (loadWords a ws s).mem.wf = true := by
  induction ws generalizing a s with
  | nil => exact canonical
  | cons w ws ih => exact ih (a + 1) (setCell_wf a w canonical)

/-- A boot is the loader's stores from reset. -/
theorem boot_eq_some {bytes : List Byte} {s : State} (booted : State.boot bytes = some s) :
    ∃ origin data, s = loadWords origin data State.reset := by
  unfold State.boot at booted
  split at booted
  · exact ⟨_, _, (Option.some.inj booted).symm⟩
  · cases booted

theorem boot_inv {bytes : List Byte} {s : State} (booted : State.boot bytes = some s) : s.Inv := by
  obtain ⟨origin, data, rfl⟩ := boot_eq_some booted
  have memory := loadWords_wf origin data reset_mem_wf
  rw [loadWords_eq] at memory ⊢
  exact ⟨memory, reset_inv.flags, reset_inv.cause, reset_inv.unfinished⟩

theorem reachable_inv {s : State} (reachable : Reachable s) : s.Inv := by
  induction reachable with
  | reset => exact reset_inv
  | boot booted => exact boot_inv booted
  | step _ stepped inv => exact step_keeps_inv inv stepped
  | receive b _ inv => exact ⟨inv.memory, inv.flags, inv.cause, inv.unfinished⟩
  | raiseShutdown _ inv => exact ⟨inv.memory, inv.flags, inv.cause, inv.unfinished⟩
  | settlePolls answers _ inv => exact ⟨inv.memory, inv.flags, inv.cause, inv.unfinished⟩

/-- Settles O47, part by part: memory (`step_wf`), the flags (`step_keeps_legalCond`), the run state
(`step_keeps_legalRun`). -/
theorem stepKeepsInvariant : Obligations.StepKeepsInvariant := fun _ _ inv stepped => step_keeps_inv inv stepped

/-- Settles O48: nothing is stored, no flag is set, and the core runs outside of any routine. -/
theorem resetHasInvariant : Obligations.ResetHasInvariant := reset_inv

/-- Settles O49, by induction on how the state was reached. -/
theorem reachableStatesHaveInvariant : Obligations.ReachableStatesHaveInvariant := fun _ reachable =>
  reachable_inv reachable

end Sys2Proof.Proofs
end

section
/-! PROOFS. The obligations of 40_execution_cycle.md section 3 and of 60_exceptions.md: the console streams, the input
wait, and the events that end a run (R30, R89 to R92, R185). -/

namespace Sys2Proof.Proofs

open Sys2Proof.Machine Sys2Proof.Machine.Laws

/-! The streams. -/

/-- An instruction that is none of the five writing routines writes nothing (R183). -/
theorem exec_conOut {i : Instr} {s t : State} (run : exec i s = .next t) (silent : i.printsBytes = false) :
    t.conOut = s.conOut := by
  cases kind : endsOrTalks i with
  | false => exact (exec_quiet run kind).out
  | true =>
    cases i with
    | rti | res =>
      cases run
      rfl
    | trapGetc =>
      cases run
      exact requestChar_induction (P := fun t => t.conOut = s.conOut) rfl (fun _ _ _ => rfl) (fun _ => rfl)
    | trapOut | trapPuts | trapIn | trapPutsp | trapHalt => cases silent
    | _ => cases kind

/-- Settles O54, by the frames of the step (`step_streams`) and of an instruction (`exec_conOut`). -/
theorem outputIsAppendOnly : Obligations.OutputIsAppendOnly := by
  refine ⟨?grows, fun i s t run silent => exec_conOut run silent⟩
  case grows =>
    intro s t stepped
    obtain ⟨out, written⟩ := (step_streams stepped).out
    exact ⟨out, written.symm⟩

/-- Settles O55, by the same frame of the step. -/
theorem inputIsTakenInOrder : Obligations.InputIsTakenInOrder := by
  intro s t stepped
  obtain ⟨taken, before⟩ := (step_streams stepped).input
  exact ⟨taken, before.symm⟩

/-! The input wait. -/

theorem requestChar_waits {w : Held} {resume : Byte → State → State} {s : State} (noReq : s.shutdownReq = false)
    (noByte : s.conIn = []) : requestChar w resume s = { s with held := w } := by
  simp [requestChar, noReq, noByte]

theorem requestChar_takes {w : Held} {resume : Byte → State → State} {s : State} {c : Byte} {rest : List Byte}
    (noReq : s.shutdownReq = false) (pending : s.conIn = c :: rest) :
    requestChar w resume s = resume c { s with held := .none, conIn := rest } := by
  simp [requestChar, noReq, pending]

theorem requestChar_abandons {w : Held} {resume : Byte → State → State} {s : State} (req : s.shutdownReq = true) :
    requestChar w resume s = halt .shutdown { s with held := .none } := by
  simp [requestChar, req]

/-- Settles O42: of what an instruction can do to the run state (`exec_runChange`) only the entry of a routine leaves
the core inside one. -/
theorem waitIsEnteredByGetcAndIn : Obligations.WaitIsEnteredByGetcAndIn := by
  refine ⟨?entered, fun s noByte noReq => ⟨?getc, ?inEcho⟩⟩
  case entered =>
    intro i s t between run inside
    cases exec_runChange run with
    | enters _ _ entry => exact entry
    | goesOn _ _ held | ends _ _ held =>
      have outside : t.held = .none := held.elim (fun same => same.trans between) id
      exact absurd outside inside
  case getc => exact congrArg Host.Outcome.next (requestChar_waits noReq noByte)
  case inEcho =>
    exact congrArg Host.Outcome.next (requestChar_waits (s := writeBytes config.inPrompt s) noReq noByte)

/-- `t` is `s` with the byte `c` taken from the input and put into `x[0]`, `out` written, the wait over, and nothing
else changed. -/
structure TookByte (c : Byte) (rest out : List Byte) (s t : State) : Prop where
  result : (t.reg .r0).toNat = c.toNat
  regs : SameRegs [.r0] s t
  input : t.conIn = rest
  out : t.conOut = s.conOut ++ out
  rest : SameRest s t
  state : t.runState = s.runState
  cause : t.haltCause = s.haltCause
  held : t.held = .none

theorem sameRest_of_eq {s t : State} (pc : t.pc = s.pc) (cond : t.cond = s.cond) (mem : t.mem = s.mem)
    (shutdownReq : t.shutdownReq = s.shutdownReq) (draws : t.pollDraws = s.pollDraws)
    (count : t.pollCount = s.pollCount) : SameRest s t :=
  ⟨pc, cond, fun a _ => congrArg (fun m => Memory.read m a.toNat) mem, shutdownReq, draws, count⟩

/-- GETC takes its byte without an echo (R141). -/
theorem getcTakes_tookByte (c : Byte) (rest : List Byte) (s : State) :
    TookByte c rest [] s (getcTakes c { s with held := .none, conIn := rest }) where
  result := (congrArg BitVec.toNat (setReg_reg_same _ _ _)).trans (zext_toNat c)
  regs := setReg_sameRegs .r0 (zext c) s
  input := rfl
  out := (List.append_nil _).symm
  rest := sameRest_of_eq rfl rfl rfl rfl rfl rfl
  state := rfl
  cause := rfl
  held := rfl

/-- IN echoes its byte and a newline (R144). -/
theorem inTakes_tookByte (c : Byte) (rest : List Byte) (s : State) :
    TookByte c rest [c, config.newline] s (inTakes c { s with held := .none, conIn := rest }) where
  result := (congrArg BitVec.toNat (setReg_reg_same _ _ _)).trans (zext_toNat c)
  regs := setReg_sameRegs .r0 (zext c) s
  input := rfl
  out := List.append_assoc s.conOut [c] [config.newline]
  rest := sameRest_of_eq rfl rfl rfl rfl rfl rfl
  state := rfl
  cause := rfl
  held := rfl

theorem step_getc {s : State} (running : s.runState = .running) (waits : s.held = .getc) :
    step s = .next (awaitGetc s) := by
  rw [step, cycle, running]
  simp only [waits]

theorem step_inEcho {s : State} (running : s.runState = .running) (waits : s.held = .inEcho) :
    step s = .next (awaitIn s) := by
  rw [step, cycle, running]
  simp only [waits]

/-- Settles O43: the three ends of the wait. Both routines abandon and keep it alike; a byte is taken by the one the
core is inside (`getcTakes_tookByte`, `inTakes_tookByte`). -/
theorem waitIsLeftByByteOrShutdown : Obligations.WaitIsLeftByByteOrShutdown := by
  intro s running waits
  obtain ⟨resume, stepped, took⟩ : ∃ resume, step s = .next (requestChar s.held resume s) ∧ ∀ c rest,
      TookByte c rest (if s.held = .inEcho then [c, config.newline] else []) s
        (resume c { s with held := .none, conIn := rest }) := by
    obtain getc | inEcho := waits
    · rw [step_getc running getc, getc]
      exact ⟨getcTakes, rfl, fun c rest => getcTakes_tookByte c rest s⟩
    · rw [step_inEcho running inEcho, inEcho]
      exact ⟨inTakes, rfl, fun c rest => inTakes_tookByte c rest s⟩
  rw [stepped]
  refine ⟨fun req => ?request, fun noReq noByte => ?waits, fun c rest noReq pending => ?byte⟩
  case request =>
    rw [requestChar_abandons req]
    exact ⟨_, rfl, ⟨rfl, rfl, rfl, rfl, fun _ _ => rfl, fun _ _ => rfl⟩, ⟨rfl, rfl, rfl, rfl, rfl⟩, rfl⟩
  case waits => rw [requestChar_waits noReq noByte]
  case byte =>
    rw [requestChar_takes noReq pending]
    obtain ⟨result, regs, input, out, others, state', cause', held'⟩ := took c rest
    exact ⟨_, rfl, result, regs, input, out, others, state'.trans running, cause', held'⟩

/-! The end of a run. -/

theorem requestChar_halted {w : Held} {resume : Byte → State → State} {s : State} (running : s.runState = .running)
    (takes : ∀ c u, SameRun u (resume c u)) (halted : (requestChar w resume s).runState = .halted) :
    s.shutdownReq = true ∧ (requestChar w resume s).haltCause = .shutdown := by
  obtain ⟨req, result⟩ | ⟨c, rest, -, -, result⟩ | ⟨-, -, result⟩ := requestChar_cases w resume s
  · exact ⟨req, by rw [result, halt_haltCause]⟩
  · rw [result, (takes c _).1] at halted
    cases running.symm.trans halted
  · rw [result] at halted
    cases running.symm.trans halted

theorem putString_runState (routine : Held) (emit : Word → List Byte) (s : State) :
    (putString routine emit s).runState = s.runState := by
  obtain ⟨-, -, -, state, -⟩ := putString_frame routine emit s
  exact state

/-- A running core is halted only by the request or by HALT, RTI or RES. -/
theorem exec_halted {i : Instr} {s t : State} (run : exec i s = .next t) (running : s.runState = .running)
    (halted : t.runState = .halted) : EndsRun i s t.haltCause := by
  cases exec_runChange run with
  | goesOn state' | enters state' => cases running.symm.trans (state'.symm.trans halted)
  | ends _ event => exact event

/-- Settles O56: outside of an instruction only the request ends a run, and of the events that end it in one
(`exec_halted`) the request is none, as the instruction was begun without it. -/
theorem fourEventsEndARun : Obligations.FourEventsEndARun := by
  intro s t running stepped halted
  obtain ⟨halted', -⟩ | ⟨-, -, rfl⟩ | ⟨-, -, rfl⟩ | ⟨-, -, rfl⟩ | ⟨-, -, rfl⟩ | ⟨-, -, req, rfl⟩ |
    ⟨-, between, noReq, run⟩ := step_cases stepped
  · cases running.symm.trans halted'
  · obtain ⟨req, cause⟩ := requestChar_halted (resume := getcTakes) running (fun _ _ => ⟨rfl, rfl, rfl⟩) halted
    exact .inl ⟨req, cause, congrArg HaltCause.code cause⟩
  · obtain ⟨req, cause⟩ := requestChar_halted (resume := inTakes) running (fun _ _ => ⟨rfl, rfl, rfl⟩) halted
    exact .inl ⟨req, cause, congrArg HaltCause.code cause⟩
  · cases running.symm.trans ((putString_runState .puts putsBytes { s with held := .none }).symm.trans halted)
  · cases running.symm.trans ((putString_runState .putsp putspBytes { s with held := .none }).symm.trans halted)
  · exact .inl ⟨req, rfl, rfl⟩
  · have fetched : (fetch s).2.runState = .running := (fetch_quiet s).run.1.trans running
    have noReq' : (fetch s).2.shutdownReq = false := (memRead_shutdownReq s.pc s).trans noReq
    refine .inr ⟨⟨running, between, noReq⟩, ?event⟩
    obtain ⟨req, -⟩ | ⟨isHalt, cause⟩ | ⟨isRti, cause⟩ | ⟨isRes, cause⟩ := exec_halted run fetched halted
    · cases noReq'.symm.trans req
    · exact .inl ⟨isHalt, cause, congrArg HaltCause.code cause⟩
    · exact .inr (.inl ⟨isRti, cause, congrArg HaltCause.code cause⟩)
    · exact .inr (.inr ⟨isRes, cause, congrArg HaltCause.code cause⟩)

end Sys2Proof.Proofs
end

section
/-! PROOFS. The obligations of 43_control.md on BR, of 45_reserved.md and of 44_trap.md but the string routines (R130,
R141, R142, R144, R146, R147, R160, R161), each from the word. -/

namespace Sys2Proof.Proofs

open Sys2Proof.Machine Sys2Proof.Machine.Laws

/-! BR. -/

/-- The bit of a field is the bit of the word. -/
theorem bitsAt_getLsbD {lo n j : Nat} (w : Word) (inside : j < n) :
    (bitsAt lo n w).getLsbD j = w.getLsbD (lo + j) := by
  simp [bitsAt, inside]

/-- The field meets a one-hot flag exactly where it has that flag's bit set (D2, D3). -/
theorem and_flag_eq_zero_iff : ∀ nzp : BitVec 3,
    (nzp &&& config.flNeg = 0b000#3 ↔ nzp.getLsbD 2 = false) ∧
      (nzp &&& config.flZro = 0b000#3 ↔ nzp.getLsbD 1 = false) ∧
      (nzp &&& config.flPos = 0b000#3 ↔ nzp.getLsbD 0 = false) := by
  decide

/-- What BR does where its test is the bit `taken`. -/
theorem br_jumped {nzp : BitVec 3} {s : State} {taken : Bool} (w : Word)
    (test : nzp &&& s.cond = 0b000#3 ↔ taken = false) :
    Jumped [] (if taken then relTo s.pc 9 w else s.pc) s
      (if nzp &&& s.cond = 0b000#3 then s else s.setPc (ea9 (bitsAt 0 9 w) s)) := by
  cases taken with
  | false =>
    rw [if_pos (test.mpr rfl)]
    exact ⟨rfl, rfl, onlyCore_refl [] [] s⟩
  | true =>
    have meets : ¬ nzp &&& s.cond = 0b000#3 := fun misses => Bool.noConfusion (test.mp misses)
    rw [if_pos rfl, if_neg meets, ea9_eq_relTo]
    exact setPc_jumped _ (onlyCore_refl [] [] s) rfl

/-- Settles O19: with one flag set the test is one bit of the field, with no flag or no field it fails. -/
theorem branchOnFlags : Obligations.BranchOnFlags := by
  intro w s row
  obtain ⟨neg, zro, pos⟩ := and_flag_eq_zero_iff (bitsAt 9 3 w)
  rw [decode_br row]
  refine ⟨_, rfl, fun cond => br_jumped w ?neg, fun cond => br_jumped w ?zro, fun cond => br_jumped w ?pos,
    fun unset => br_jumped (taken := false) w (iff_of_true ?unset rfl),
    fun noField => br_jumped (taken := false) w (iff_of_true ?noField rfl)⟩
  case neg => rw [cond, neg, bitsAt_getLsbD w (by decide)]
  case zro => rw [cond, zro, bitsAt_getLsbD w (by decide)]
  case pos => rw [cond, pos, bitsAt_getLsbD w (by decide)]
  case unset =>
    rw [unset]
    exact BitVec.and_zero
  case noField =>
    have field : bitsAt 9 3 w = 0#3 := BitVec.eq_of_toNat_eq ((bitsAt_toNat 9 3 w).trans noField)
    rw [field]
    exact BitVec.zero_and

/-! The reserved opcodes and HALT. -/

theorem halt_ended (cause : HaltCause) {s u : State} (pc : u.pc = s.pc) (cond : u.cond = s.cond) (regs : SameRegs [] s u)
    (cells : SameCells [] s u) : Ended cause s (halt cause u) :=
  ⟨rfl, rfl, pc, cond, regs, cells⟩

/-- What the reserved-opcode fault does (R171), and that it is final (D22). -/
theorem halt_takesFault (cause : HaltCause) (s : State) :
    Ended cause s (halt cause s) ∧ SameEnv s (halt cause s) ∧ (halt cause s).held = s.held ∧
      step (halt cause s) = .next (halt cause s) :=
  ⟨halt_ended cause rfl rfl (fun _ _ => rfl) (fun _ _ => rfl), ⟨rfl, rfl, rfl, rfl, rfl⟩, rfl, step_halted rfl⟩

/-- Settles O23: both rows are the fault, each with its cause (`halt_takesFault`). -/
theorem reservedOpcodesTakeFault : Obligations.ReservedOpcodesTakeFault := by
  intro w s
  refine ⟨fun row => ?rti, fun row => ?res⟩
  case rti =>
    rw [decode_rti row]
    exact ⟨_, rfl, halt_takesFault .reservedRti s⟩
  case res =>
    rw [decode_res row]
    exact ⟨_, rfl, halt_takesFault .reservedRes s⟩

/-- Settles O32: the notice, then the end of the run. -/
theorem haltEndsRun : Obligations.HaltEndsRun := by
  intro w s row
  rw [decode_trapHalt row]
  exact ⟨_, rfl, halt_ended .haltTrap rfl rfl (fun _ _ => rfl) (fun _ _ => rfl), rfl, rfl,
    sameRest_of_eq rfl rfl rfl rfl rfl rfl, rfl⟩

/-! GETC, IN and OUT. -/

/-- Settles O24: the wait of GETC with a byte there. -/
theorem getcTakesByte : Obligations.GetcTakesByte := by
  intro w s c rest row noReq between pending
  obtain ⟨result, regs, input, out, others, state', cause', held'⟩ := getcTakes_tookByte c rest s
  rw [List.append_nil] at out
  refine ⟨_, ?run, result, regs, input, out, others, state', cause', held'.trans between.symm⟩
  case run =>
    rw [decode_trapGetc row]
    exact congrArg Host.Outcome.next (requestChar_takes noReq pending)

/-- Settles O25: the prompt, then the wait of IN with a byte there. -/
theorem inTakesByte : Obligations.InTakesByte := by
  intro w s c rest row noReq between pending
  obtain ⟨result, regs, input, out, others, state', cause', held'⟩ :=
    inTakes_tookByte c rest (writeBytes config.inPrompt s)
  refine ⟨_, ?run, result, regs, input, out, others, state', cause', held'.trans between.symm⟩
  case run =>
    rw [decode_trapIn row]
    exact congrArg Host.Outcome.next (requestChar_takes (s := writeBytes config.inPrompt s) noReq pending)

theorem lowByte_eq (v : Word) : lowByte v = BitVec.ofNat 8 (v.toNat % 256) := by
  apply BitVec.eq_of_toNat_eq
  simp [lowByte, BitVec.extractLsb'_toNat]

/-- Settles O26: `x[0] mod 256` is the low byte that OUT writes. -/
theorem outWritesLowByte : Obligations.OutWritesLowByte := by
  intro w s row
  rw [decode_trapOut row, ← lowByte_eq]
  exact ⟨_, rfl, rfl, rfl, fun _ _ => rfl, sameRest_of_eq rfl rfl rfl rfl rfl rfl, rfl, rfl, rfl⟩

/-! The unknown vector. -/

/-- Settles O33: the vector is none of the six, so the word is a general TRAP, which is a no-operation (D5). -/
theorem unknownTrapDoesNothing : Obligations.UnknownTrapDoesNothing := by
  intro w s row outside
  have other : isRoutineVector (bitsAt 0 8 w) = false := by
    rw [← bitsAt_toNat] at outside
    simp only [isRoutineVector, config, Bool.or_eq_false_iff, beq_eq_false_iff_ne]
    bv_omega
  rw [decode_trap_row row, decodeTrap_of_not_routine other]
  rfl

end Sys2Proof.Proofs
end

section
/-! PROOFS. The obligations of 44_trap.md on PUTS and PUTSP (R143, R145). What the walk of a string does, where it ends
and where it does not, is in `Laws`; here it is read for one lap from `x[0]`. -/

namespace Sys2Proof.Proofs

open Sys2Proof.Machine Sys2Proof.Machine.Laws

/-! The bytes that the routines write for a cell. -/

theorem lowByte_eq_setWidth (v : Word) : lowByte v = v.setWidth 8 := by
  apply BitVec.eq_of_toNat_eq
  simp [lowByte, BitVec.extractLsb'_toNat]

theorem highByte_toNat (v : Word) : (highByte v).toNat = v.toNat / 256 := by
  have := v.isLt
  simp only [highByte, BitVec.extractLsb'_toNat, Nat.shiftRight_eq_div_pow]
  omega

theorem highByte_eq_zero_iff (v : Word) : highByte v = 0x00#8 ↔ v.toNat / 256 = 0 := by
  rw [← BitVec.toNat_inj, highByte_toNat]
  rfl

theorem highByte_eq_setWidth (v : Word) : highByte v = (v >>> 8).setWidth 8 := by
  have := v.isLt
  apply BitVec.eq_of_toNat_eq
  rw [highByte_toNat]
  simp only [BitVec.toNat_setWidth, BitVec.toNat_ushiftRight, Nat.shiftRight_eq_div_pow]
  omega

theorem highByte_eq (v : Word) : highByte v = BitVec.ofNat 8 (v.toNat / 256) := by
  rw [← highByte_toNat, BitVec.ofNat_toNat, BitVec.setWidth_eq]

theorem putspBytes_eq (v : Word) :
    putspBytes v = if v.toNat / 256 = 0 then [lowByte v] else [lowByte v, highByte v] := by
  simp only [putspBytes, highByte_eq_zero_iff]

theorem writeBytes_writeBytes (bs bs' : List Byte) (s : State) :
    writeBytes bs' (writeBytes bs s) = writeBytes (bs ++ bs') s := by
  simp [writeBytes]

/-! One lap. -/

theorem putString_ended {routine : Held} {emit : Word → List Byte} {s t : State}
    (walk : walkString emit lapReads (s.reg .r0) s = (true, t)) : putString routine emit s = t := by
  rw [putString, walk]
  rfl

theorem ofNat_succ (a : Word) (k : Nat) : a + 1 + BitVec.ofNat 16 k = a + BitVec.ofNat 16 (k + 1) := by
  rw [Nat.add_comm k 1]
  exact add_ofNat_add a 1 k

/-- The walk of a string of `n` nonzero cells that ends in a zero cell and does not meet the keyboard register. -/
theorem walkString_string (emit : Word → List Byte) {n fuel : Nat} {a : Word} {s : State} (short : n < fuel)
    (away : ∀ k, k ≤ n → a + BitVec.ofNat 16 k ≠ config.kbsrAddr)
    (nonzero : ∀ k, k < n → s.cell (a + BitVec.ofNat 16 k) ≠ 0x0000#16)
    (zero : s.cell (a + BitVec.ofNat 16 n) = 0x0000#16) :
    walkString emit fuel a s =
      (true, writeBytes ((List.range n).flatMap fun k => emit (s.cell (a + BitVec.ofNat 16 k))) s) := by
  induction n generalizing fuel a s with
  | zero =>
    obtain ⟨fuel, rfl⟩ := Nat.exists_eq_add_one_of_ne_zero (Nat.ne_of_gt short)
    have away0 := away 0 (Nat.le_refl 0)
    rw [BitVec.add_zero] at away0 zero
    rw [walkString_succ, memRead_plain s away0, if_pos zero]
    simp [writeBytes]
  | succ n ih =>
    obtain ⟨fuel, rfl⟩ := Nat.exists_eq_add_one_of_ne_zero (Nat.ne_zero_of_lt short)
    have away0 := away 0 (Nat.zero_le _)
    have nonzero0 := nonzero 0 (Nat.succ_pos n)
    rw [BitVec.add_zero] at away0 nonzero0
    rw [walkString_succ, memRead_plain s away0, if_neg nonzero0,
      ih (Nat.lt_of_succ_lt_succ short) (fun k le => ofNat_succ a k ▸ away (k + 1) (Nat.succ_le_succ le))
        (fun k lt => ofNat_succ a k ▸ nonzero (k + 1) (Nat.succ_lt_succ lt)) (ofNat_succ a n ▸ zero)]
    simp only [List.range_succ_eq_map, List.flatMap_cons, List.flatMap_map, BitVec.add_zero, ofNat_succ, writeBytes_cell,
      writeBytes_writeBytes, Nat.succ_eq_add_one]

/-- A string that does not meet the keyboard register is shorter than a lap. -/
theorem string_short {n : Nat} {a : Word} (away : ∀ k, k ≤ n → a + BitVec.ofNat 16 k ≠ config.kbsrAddr) :
    n < lapReads := by
  have bound : n < toKeyboard a := by
    by_contra past
    exact away (toKeyboard a) (Nat.le_of_not_lt past) (add_toKeyboard a)
  exact bound.trans (toKeyboard_lt a)

/-- Settles O27: one lap is the walk of the string, and PUTS writes a cell's low byte. -/
theorem putsWritesString : Obligations.PutsWritesString := by
  intro w s n row away nonzero zero
  have lap := putString_ended (routine := .puts) (walkString_string putsBytes (string_short away) away nonzero zero)
  rw [decode_trapPuts row]
  refine ⟨_, congrArg Host.Outcome.next lap, ?out, rfl, fun _ _ => rfl, sameRest_of_eq rfl rfl rfl rfl rfl rfl, rfl,
    rfl, rfl⟩
  case out => simp only [writeBytes_conOut, putsBytes, lowByte_eq, List.map_eq_flatMap]

/-- Settles O28: as PUTS, with the high byte after the low one where it is not zero. -/
theorem putspWritesPackedString : Obligations.PutspWritesPackedString := by
  intro w s n row away nonzero zero
  have lap := putString_ended (routine := .putsp) (walkString_string putspBytes (string_short away) away nonzero zero)
  have bytes (v : Word) : putspBytes v =
      BitVec.ofNat 8 (v.toNat % 256) :: if v.toNat / 256 = 0 then [] else [BitVec.ofNat 8 (v.toNat / 256)] := by
    rw [putspBytes_eq, lowByte_eq, highByte_eq]
    by_cases low : v.toNat / 256 = 0
    · rw [if_pos low, if_pos low]
    · rw [if_neg low, if_neg low]
  rw [decode_trapPutsp row]
  refine ⟨_, congrArg Host.Outcome.next lap, ?out, rfl, fun _ _ => rfl, sameRest_of_eq rfl rfl rfl rfl rfl rfl, rfl,
    rfl, rfl⟩
  case out => simp only [writeBytes_conOut, bytes]

/-! Cell by cell. -/

/-- A routine that ends in this lap has read a zero cell in it. -/
theorem walkString_of_putString {routine : Held} {emit : Word → List Byte} {s t : State} (inside : routine ≠ .none)
    (lap : putString routine emit s = t) (ended : t.held = .none) :
    walkString emit lapReads (s.reg .r0) s = (true, t) := by
  obtain ⟨zero, result⟩ | ⟨-, result⟩ := putString_cases routine emit s
  · exact Prod.ext zero (result.symm.trans lap)
  · rw [← lap, result] at ended
    exact absurd ended inside

/-- A walk that has ended ends alike with more reads to go. -/
theorem walkString_more {emit : Word → List Byte} {m : Nat} (n : Nat) {a : Word} {s t : State}
    (walk : walkString emit m a s = (true, t)) : walkString emit (m + n) a s = (true, t) := by
  rw [walkString_add, walk, if_pos rfl]

/-- A routine that reads zero at once ends. -/
theorem putString_zero (routine : Held) (emit : Word → List Byte) {s : State}
    (zero : (memRead (s.reg .r0) s).1 = 0x0000#16) :
    putString routine emit s = (memRead (s.reg .r0) s).2 := by
  refine putString_ended ((walkString_succ emit 65535 _ s).trans ?_)
  rw [if_pos zero]

/-- A routine that ends does, after its first nonzero cell, what it does from the next address on. -/
theorem putString_next {routine : Held} {emit : Word → List Byte} {s t : State} (inside : routine ≠ .none)
    (nonzero : (memRead (s.reg .r0) s).1 ≠ 0x0000#16) (lap : putString routine emit s = t) (ended : t.held = .none) :
    putString routine emit ((writeBytes (emit (memRead (s.reg .r0) s).1) (memRead (s.reg .r0) s).2).setReg .r0
      (s.reg .r0 + 1)) = t.setReg .r0 (s.reg .r0 + 1) := by
  have walk := (walkString_succ emit 65535 _ s).symm.trans (walkString_of_putString inside lap ended)
  rw [if_neg nonzero] at walk
  refine putString_ended ?_
  rw [setReg_reg_same, walkString_setReg, show lapReads = 65535 + 1 from rfl, walkString_more 1 walk]

/-- Settles O29: of the routine's first read, zero ends it (`putString_zero`), and otherwise the rest of its lap is a
lap from the next address (`putString_next`). -/
theorem stringWalkCellByCell : Obligations.StringWalkCellByCell := by
  intro s between a r
  refine ⟨fun zero => ⟨?putsZero, ?putspZero⟩, fun nonzero t ended => ⟨fun run => ?puts, fun run => ?putsp⟩⟩
  case putsZero => exact congrArg Host.Outcome.next (putString_zero .puts putsBytes zero)
  case putspZero => exact congrArg Host.Outcome.next (putString_zero .putsp putspBytes zero)
  case puts =>
    have next := putString_next (emit := putsBytes) (by decide) nonzero (Host.Outcome.next.inj run) ended
    rw [putsBytes, lowByte_eq_setWidth] at next
    exact congrArg Host.Outcome.next next
  case putsp =>
    have next := putString_next (emit := putspBytes) (by decide) nonzero (Host.Outcome.next.inj run) ended
    have small : r.1.toNat / 256 = 0 ↔ r.1.toNat < 256 := Nat.div_eq_zero_iff.trans (by simp)
    simp only [putspBytes_eq, lowByte_eq_setWidth, highByte_eq_setWidth] at next
    rw [if_congr small rfl rfl] at next
    exact congrArg Host.Outcome.next next

/-! Where a lap ends, and where it does not. -/

/-- One lap of either routine: what it leaves alone, and the two ways it can stop (R85, R143). -/
theorem putString_endsAtZeroCellOnly {routine : Held} (emit : Word → List Byte) {s : State}
    (canonical : s.mem.wf = true) (between : s.held = .none) :
    let t := putString routine emit s
    SameRegs [] s t ∧ t.pc = s.pc ∧ t.cond = s.cond ∧ t.runState = s.runState ∧
      t.haltCause = s.haltCause ∧ t.shutdownReq = s.shutdownReq ∧ SameCells [config.kbsrAddr, config.kbdrAddr] s t ∧
      (∃ out, t.conOut = s.conOut ++ out) ∧ (∃ taken, s.conIn = taken ++ t.conIn) ∧
      ((t.held = .none ∧ ∃ a, t.cell a = 0x0000#16) ∨
        (t.held = routine ∧ (∀ a, t.cell a ≠ 0x0000#16) ∧ ∃ c, c ≠ 0x00#8 ∧ s.conIn = c :: t.conIn)) ∧
      (s.conIn = [] → t.held = .none) := by
  obtain ⟨regs, pc, cond, state, cause, -, request, cells, -, out, input⟩ := putString_frame routine emit s
  have ends := putString_held (routine := routine) emit canonical between
  have sameCells : SameCells [config.kbsrAddr, config.kbdrAddr] s (putString routine emit s) := by
    intro a unlisted
    simp only [List.mem_cons, List.not_mem_nil, or_false, not_or] at unlisted
    exact cells a unlisted.1 unlisted.2
  refine ⟨sameRegs_of_regs_eq regs, pc, cond, state, cause, request, sameCells, out, input, ends, fun noByte => ?_⟩
  obtain ⟨ended, -⟩ | ⟨-, -, c, -, pending⟩ := ends
  · exact ended
  · cases noByte.symm.trans pending

/-- Settles O30: both routines are laps (`putString_endsAtZeroCellOnly`). -/
theorem stringEndsAtZeroCellOnly : Obligations.StringEndsAtZeroCellOnly := by
  intro i routine s which canonical between
  obtain ⟨rfl, rfl⟩ | ⟨rfl, rfl⟩ := which
  · exact ⟨_, rfl, putString_endsAtZeroCellOnly putsBytes canonical between⟩
  · exact ⟨_, rfl, putString_endsAtZeroCellOnly putspBytes canonical between⟩

/-- Every cell but the keyboard's is nonzero, and the environment has given nothing that was not used. -/
def Full (s : State) : Prop :=
  s.mem.wf = true ∧ (∀ a, a ≠ config.kbsrAddr → s.cell a ≠ 0x0000#16) ∧ s.conIn = [] ∧ s.pollDraws = []

/-- With a nonzero byte that the poll answers, a lap over full memory does not end, and uses up the byte. -/
theorem putString_full_received (routine : Held) (emit : Word → List Byte) {s u : State} {c : Byte} (full : Full s)
    (nonzero : c ≠ 0x00#8) (mem : u.mem = s.mem) (input : u.conIn = s.conIn ++ [c])
    (draws : u.pollDraws = s.pollDraws ++ [true]) :
    (putString routine emit u).held = routine ∧ Full (putString routine emit u) := by
  obtain ⟨canonical, cells, noInput, noDraws⟩ := full
  rw [noInput, List.nil_append] at input
  rw [noDraws, List.nil_append] at draws
  have canonical' : u.mem.wf = true := by rw [mem, canonical]
  have cells' : ∀ a, a ≠ config.kbsrAddr → u.cell a ≠ 0x0000#16 := by
    intro a away
    rw [State.cell, mem]
    exact cells a away
  have ready : u.pollReady = true := by rw [State.pollReady, draws]
  obtain ⟨held, rest, used, nonzeroCells⟩ := putString_full routine emit canonical' cells' nonzero input ready
  rw [draws] at used
  exact ⟨held, putString_wf routine emit canonical', fun a _ => nonzeroCells a, rest, used⟩

theorem step_puts {s : State} (running : s.runState = .running) (inside : s.held = .puts) :
    step s = exec .trapPuts { s with held := .none } := by
  rw [step, cycle, running]
  simp only [inside]
  rfl

theorem step_putsp {s : State} (running : s.runState = .running) (inside : s.held = .putsp) :
    step s = exec .trapPutsp { s with held := .none } := by
  rw [step, cycle, running]
  simp only [inside]
  rfl

/-- Settles O31: the lap that does not end (`putString_full_received`) is the one of the instruction and the one of
every later step of the held core. -/
theorem stringWithoutZeroCellNeverEnds : Obligations.StringWithoutZeroCellNeverEnds := by
  refine ⟨fun s c full nonzero _ => ⟨?puts, ?putsp⟩, fun s c full nonzero running inside => ?later,
    fun s running => ⟨step_puts running, step_putsp running⟩⟩
  case puts => exact ⟨_, rfl, putString_full_received .puts putsBytes full nonzero rfl rfl rfl⟩
  case putsp => exact ⟨_, rfl, putString_full_received .putsp putspBytes full nonzero rfl rfl rfl⟩
  case later =>
    have state (routine : Held) (emit : Word → List Byte) {u : State} (same : u.runState = s.runState) :
        (putString routine emit u).runState = .running :=
      (putString_runState routine emit u).trans (same.trans running)
    obtain puts | putsp := inside
    · rw [step_puts (s := (s.receive c).settlePolls [true]) running puts, puts]
      exact ⟨_, rfl, state .puts putsBytes rfl, putString_full_received .puts putsBytes full nonzero rfl rfl rfl⟩
    · rw [step_putsp (s := (s.receive c).settlePolls [true]) running putsp, putsp]
      exact ⟨_, rfl, state .putsp putspBytes rfl, putString_full_received .putsp putspBytes full nonzero rfl rfl rfl⟩

end Sys2Proof.Proofs
end

section
/-! PROOFS. The obligations of 20_memory.md on the keyboard register (R43, R44), with a shared and with a distinct data
register, and on the canonical form of memory (assumption 1). A latch update has two results, `latchEmpty` and
`latchByte`; what each holds is said once, for every choice of the parameters. -/

namespace Sys2Proof.Proofs

open Sys2Proof.Machine Sys2Proof.Machine.Laws

/-! The two results of a latch update. -/

/-- No byte was delivered: the status cell is cleared. -/
def latchEmpty (c : Config) (s : State) : State := s.usePoll.setCell c.kbsrAddr 0x0000#16

/-- The byte `ch` was delivered: the status cell is set, then the data cell. -/
def latchByte (c : Config) (ch : Byte) (rest : List Byte) (s : State) : State :=
  ({ s.usePoll with conIn := rest }.setCell c.kbsrAddr 0x8000#16).setCell c.kbdrAddr (zext ch)

/-- Why a poll answers nothing (R90). -/
def NoAnswer (c : Config) (s : State) : Prop := c.kbdPoll = .never ∨ s.conIn = [] ∨ s.pollReady = false

theorem kbdLatchIn_empty {c : Config} {s : State} (noAnswer : NoAnswer c s) : kbdLatchIn c s = latchEmpty c s := by
  obtain ⟨latch, -⟩ | ⟨ch, rest, query, pending, ready, -⟩ := kbdLatchIn_cases c s
  · exact latch
  · simp [NoAnswer, query, pending, ready] at noAnswer

theorem kbdLatchIn_byte {c : Config} {s : State} {ch : Byte} {rest : List Byte} (query : c.kbdPoll = .query)
    (pending : s.conIn = ch :: rest) (ready : s.pollReady = true) : kbdLatchIn c s = latchByte c ch rest s := by
  obtain ⟨-, noAnswer⟩ | ⟨ch', rest', -, pending', -, latch⟩ := kbdLatchIn_cases c s
  · simp [query, pending, ready] at noAnswer
  · cases pending.symm.trans pending'
    exact latch

/-- What an answer settled beforehand is (assumption 9). -/
theorem pollReady_of_draw {s : State} {d : Bool} {ds : List Bool} (draws : s.pollDraws = d :: ds) :
    s.pollReady = d := by
  rw [State.pollReady, draws]

theorem pollReady_of_head {s : State} (draws : s.pollDraws.head? = some false) : s.pollReady = false :=
  pollReady_of_draw (List.eq_cons_of_mem_head? draws)

section Latch

variable (c : Config) (ch : Byte) (rest : List Byte) {s : State}

theorem latchEmpty_status (canonical : s.mem.wf = true) : (latchEmpty c s).cell c.kbsrAddr = 0x0000#16 :=
  setCell_cell_same (s := s.usePoll) c.kbsrAddr 0x0000#16 canonical

theorem latchEmpty_sameCells : SameCells [c.kbsrAddr] s (latchEmpty c s) := by
  intro a unlisted
  exact setCell_cell_ne s.usePoll 0x0000#16 (List.ne_of_not_mem_cons unlisted)

theorem latchByte_data (canonical : s.mem.wf = true) : (latchByte c ch rest s).cell c.kbdrAddr = zext ch :=
  setCell_cell_same _ _ (setCell_wf _ _ canonical)

theorem latchByte_status (canonical : s.mem.wf = true) (distinct : c.kbdrAddr ≠ c.kbsrAddr) :
    (latchByte c ch rest s).cell c.kbsrAddr = 0x8000#16 := by
  rw [latchByte, setCell_cell_ne _ _ distinct.symm]
  exact setCell_cell_same (s := { s.usePoll with conIn := rest }) _ _ canonical

theorem latchByte_sameCells : SameCells [c.kbsrAddr, c.kbdrAddr] s (latchByte c ch rest s) := by
  intro a unlisted
  simp only [List.mem_cons, List.not_mem_nil, or_false, not_or] at unlisted
  rw [latchByte, setCell_cell_ne _ _ unlisted.2, setCell_cell_ne _ _ unlisted.1]
  rfl

/-- What no latch update changes. -/
structure LatchFrame (s t : State) : Prop where
  regs : SameRegs [] s t
  run : SameRun s t
  pc : t.pc = s.pc
  cond : t.cond = s.cond
  out : t.conOut = s.conOut
  request : t.shutdownReq = s.shutdownReq
  draws : t.pollDraws = s.pollDraws.tail
  count : t.pollCount = s.pollCount + 1

theorem kbdLatchIn_frame (s : State) : LatchFrame s (kbdLatchIn c s) := by
  obtain ⟨latch, -⟩ | ⟨ch, rest, -, -, -, latch⟩ := kbdLatchIn_cases c s
  · rw [latch]
    exact ⟨fun _ _ => rfl, ⟨rfl, rfl, rfl⟩, rfl, rfl, rfl, rfl, rfl, rfl⟩
  · rw [latch]
    exact ⟨fun _ _ => rfl, ⟨rfl, rfl, rfl⟩, rfl, rfl, rfl, rfl, rfl, rfl⟩

end Latch

/-! The obligations. -/

/-- Settles O36: with the shared address the byte of `latchByte` stands in the cell that is read. -/
theorem keyboardReadShared : Obligations.KeyboardReadShared := by
  intro s canonical r
  have read : r = ((kbdLatchIn config s).cell config.kbsrAddr, kbdLatchIn config s) := memReadIn_kbsr config s
  obtain ⟨regs, run, pc, cond, out, request, draws, count⟩ := kbdLatchIn_frame config s
  have empty : (latchEmpty config s).cell config.kbsrAddr = 0x0000#16 := latchEmpty_status config canonical
  have byte (ch : Byte) (rest : List Byte) : ((latchByte config ch rest s).cell config.kbsrAddr).toNat = ch.toNat :=
    (congrArg BitVec.toNat (latchByte_data config ch rest canonical)).trans (zext_toNat ch)
  rw [read]
  refine ⟨rfl, fun c rest ds pending answer => ?answered, fun unanswered => ?unanswered, ?either, regs, ?cells, run, pc,
    cond, out, request, draws, count⟩
  case answered =>
    rw [kbdLatchIn_byte rfl pending (pollReady_of_draw answer)]
    exact ⟨byte c rest, rfl⟩
  case unanswered =>
    rw [kbdLatchIn_empty (.inr (unanswered.imp_right pollReady_of_head))]
    exact ⟨empty, rfl⟩
  case either =>
    obtain ⟨latch, -⟩ | ⟨ch, rest, -, pending, -, latch⟩ := kbdLatchIn_cases config s
    · rw [latch]
      exact .inl ⟨empty, rfl⟩
    · rw [latch]
      exact .inr ⟨ch, pending, byte ch rest⟩
  case cells =>
    obtain ⟨latch, -⟩ | ⟨ch, rest, -, -, -, latch⟩ := kbdLatchIn_cases config s
    · rw [latch]
      exact latchEmpty_sameCells config
    · rw [latch]
      intro a unlisted
      have shared : a ∈ [config.kbsrAddr, config.kbdrAddr] → a ∈ [config.kbsrAddr] := fun listed =>
        List.mem_singleton.mpr ((List.mem_pair.mp listed).elim id id)
      exact latchByte_sameCells config ch rest a (fun listed => unlisted (shared listed))

/-- Settles O37: with its own address the data cell holds the byte, and the status cell 0x8000. -/
theorem keyboardReadDistinct : Obligations.KeyboardReadDistinct := by
  intro c s canonical distinct r
  have read : r = ((kbdLatchIn c s).cell c.kbsrAddr, kbdLatchIn c s) := memReadIn_kbsr c s
  obtain ⟨regs, run, pc, cond, out, request, draws, count⟩ := kbdLatchIn_frame c s
  have byte (ch : Byte) (rest : List Byte) : ((latchByte c ch rest s).cell c.kbdrAddr).toNat = ch.toNat :=
    (congrArg BitVec.toNat (latchByte_data c ch rest canonical)).trans (zext_toNat ch)
  rw [read]
  refine ⟨rfl, fun ch rest ds query pending answer => ?answered, fun unanswered => ?unanswered, ?either, regs, run, pc,
    cond, out, request, draws, count, memReadIn_plain _ distinct⟩
  case answered =>
    rw [kbdLatchIn_byte query pending (pollReady_of_draw answer)]
    exact ⟨latchByte_status c ch rest canonical distinct, byte ch rest, rfl⟩
  case unanswered =>
    rw [kbdLatchIn_empty (unanswered.imp_right (Or.imp_right pollReady_of_head))]
    exact ⟨latchEmpty_status c canonical, latchEmpty_sameCells c _ (by simpa using distinct), rfl⟩
  case either =>
    obtain ⟨latch, -⟩ | ⟨ch, rest, -, pending, -, latch⟩ := kbdLatchIn_cases c s
    · rw [latch]
      exact .inl ⟨latchEmpty_status c canonical, rfl, latchEmpty_sameCells c⟩
    · rw [latch]
      exact .inr ⟨ch, pending, latchByte_status c ch rest canonical distinct, byte ch rest,
        latchByte_sameCells c ch rest⟩

/-! The canonical form. -/

theorem wfFrom_cons_iff {lo k : Nat} {w : Word} {m : Memory} :
    Memory.wfFrom lo ((k, w) :: m) = true ↔
      lo ≤ k ∧ k < 65536 ∧ w ≠ Memory.unlisted ∧ Memory.wfFrom (k + 1) m = true := by
  simp [Memory.wfFrom, and_assoc]

/-- The first address of a memory is not below those of one that reads alike: it is listed there too. -/
theorem not_below_of_read_eq {lo lo' k : Nat} {w : Word} {m m' : Memory}
    (wf : Memory.wfFrom lo ((k, w) :: m) = true) (wf' : Memory.wfFrom lo' m' = true)
    (alike : ∀ a, a < 65536 → Memory.read ((k, w) :: m) a = Memory.read m' a) : lo' ≤ k := by
  by_contra below
  obtain ⟨-, bound, listed, -⟩ := wfFrom_cons_iff.mp wf
  have same := alike k bound
  rw [read_cons, if_pos rfl, read_below wf' (Nat.lt_of_not_le below)] at same
  exact listed same

/-- Canonical memories that read alike are equal, entry by entry. -/
theorem eq_of_read_eq {m m' : Memory} {lo : Nat} (wf : Memory.wfFrom lo m = true) (wf' : Memory.wfFrom lo m' = true)
    (alike : ∀ a, a < 65536 → Memory.read m a = Memory.read m' a) : m = m' := by
  induction m generalizing m' lo with
  | nil =>
    cases m' with
    | nil => rfl
    | cons e m' =>
      obtain ⟨k, w⟩ := e
      have above : k + 1 ≤ k := not_below_of_read_eq (m' := []) wf' rfl fun a bound => (alike a bound).symm
      omega
  | cons e m ih =>
    obtain ⟨k, w⟩ := e
    cases m' with
    | nil =>
      have above : k + 1 ≤ k := not_below_of_read_eq (m' := []) wf rfl alike
      omega
    | cons e' m' =>
      obtain ⟨k', w'⟩ := e'
      obtain ⟨-, bound, listed, rest⟩ := wfFrom_cons_iff.mp wf
      obtain ⟨-, bound', listed', rest'⟩ := wfFrom_cons_iff.mp wf'
      have le : k' ≤ k := not_below_of_read_eq wf
        (wfFrom_cons_iff.mpr ⟨Nat.le_refl k', bound', listed', rest'⟩) alike
      have ge : k ≤ k' := not_below_of_read_eq wf'
        (wfFrom_cons_iff.mpr ⟨Nat.le_refl k, bound, listed, rest⟩) fun a inside => (alike a inside).symm
      obtain rfl : k = k' := Nat.le_antisymm ge le
      have word : w = w' := by simpa [read_cons] using alike k bound
      rw [word, ih rest rest' ?tail]
      case tail =>
        intro a inside
        by_cases above : k < a
        · simpa [read_cons, Nat.ne_of_lt above] using alike a inside
        · rw [read_below rest (by omega), read_below rest' (by omega)]

/-- Settles O39: by induction on both lists (`eq_of_read_eq`). -/
theorem equalMemoriesAreEqualData : Obligations.EqualMemoriesAreEqualData :=
  fun _ _ wf wf' alike => eq_of_read_eq wf wf' alike

end Sys2Proof.Proofs
end

section
/-! PROOFS. The obligations of 10_state.md sections 3, 4 and 6 and of 20_memory.md sections 5 and 6: where the pc goes
and what its value and that of `cond` reach (R24, R27), where memory changes (R31, R57), and that a store is seen by the
next fetch (R55). -/

namespace Sys2Proof.Proofs

open Sys2Proof.Machine Sys2Proof.Machine.Laws

/-! The pc after an instruction. -/

/-- The pc that `i` leaves, from the state the fetch left (R24). -/
def pcAfter (i : Instr) (u : State) : Word :=
  match i with
  | .br nzp off => if nzp &&& u.cond = 0b000#3 then u.pc else u.pc + sext off
  | .jsr off => u.pc + sext off
  | .jsrr base => if base = .r7 then u.pc else u.reg base
  | .jmp base => u.reg base
  | .ret => u.reg .r7
  | _ => u.pc

theorem requestChar_pc (w : Held) {resume : Byte → State → State} (s : State)
    (keeps : ∀ c u, (resume c u).pc = u.pc) : (requestChar w resume s).pc = s.pc :=
  requestChar_induction (P := fun t => t.pc = s.pc) rfl (fun c _ _ => keeps c _) (fun _ => rfl)

theorem awaitGetc_pc (s : State) : (awaitGetc s).pc = s.pc :=
  requestChar_pc .getc (resume := getcTakes) s fun _ _ => rfl

theorem awaitIn_pc (s : State) : (awaitIn s).pc = s.pc := requestChar_pc .inEcho (resume := inTakes) s fun _ _ => rfl

theorem putString_pc (routine : Held) (emit : Word → List Byte) (s : State) :
    (putString routine emit s).pc = s.pc := by
  obtain ⟨-, pc, -⟩ := putString_frame routine emit s
  exact pc

theorem loadFrom_pc (dr : Reg) (ea : Word) (s : State) : (loadFrom dr ea s).pc = s.pc := memRead_pc ea s

theorem exec_pc {i : Instr} {u t : State} (run : exec i u = .next t) : t.pc = pcAfter i u := by
  cases i with
  | br nzp off =>
    cases run
    rw [pcAfter]
    split
    · rfl
    · rfl
  | jsrr base =>
    cases run
    exact linkR7_reg base u
  | ld | ldr =>
    cases run
    exact loadFrom_pc _ _ u
  | ldi =>
    cases run
    exact (loadFrom_pc _ _ _).trans (memRead_pc _ u)
  | sti =>
    cases run
    exact memRead_pc _ u
  | trapGetc =>
    cases run
    exact awaitGetc_pc u
  | trapIn =>
    cases run
    exact awaitIn_pc (writeBytes config.inPrompt u)
  | trapPuts | trapPutsp =>
    cases run
    exact putString_pc _ _ u
  | _ =>
    cases run
    rfl

/-! What the values of the pc and of `cond` reach. An operation that reads neither takes other values of them through
to its end. -/

/-- `s` with other values in the pc and in `cond`. -/
def withPcCond (v : Word) (f : BitVec 3) (s : State) : State := { s with pc := v, cond := f }

section PassThrough

variable (v : Word) (f : BitVec 3)

theorem kbdLatchIn_withPcCond (c : Config) (s : State) :
    kbdLatchIn c (withPcCond v f s) = withPcCond v f (kbdLatchIn c s) := by
  obtain ⟨latch, noAnswer⟩ | ⟨ch, rest, query, pending, ready, latch⟩ := kbdLatchIn_cases c s
  · rw [latch, kbdLatchIn_empty (s := withPcCond v f s) noAnswer]
    rfl
  · rw [latch, kbdLatchIn_byte (s := withPcCond v f s) query pending ready]
    rfl

theorem memRead_withPcCond (a : Word) (s : State) :
    memRead a (withPcCond v f s) = ((memRead a s).1, withPcCond v f (memRead a s).2) := by
  by_cases status : a = config.kbsrAddr
  · subst status
    simp only [memRead, memReadIn_kbsr, kbdLatchIn_withPcCond]
    rfl
  · rw [memRead_plain _ status, memRead_plain _ status]
    rfl

theorem loadFrom_withPcCond (dr : Reg) (ea : Word) (s : State) :
    loadFrom dr ea (withPcCond v f s) = withPcCond v (loadFrom dr ea s).cond (loadFrom dr ea s) := by
  rw [loadFrom, memRead_withPcCond]
  rfl

theorem walkString_withPcCond (emit : Word → List Byte) (fuel : Nat) (a : Word) (s : State) :
    walkString emit fuel a (withPcCond v f s) =
      ((walkString emit fuel a s).1, withPcCond v f (walkString emit fuel a s).2) := by
  induction fuel generalizing a s with
  | zero => rfl
  | succ fuel ih =>
    rw [walkString_succ, walkString_succ, memRead_withPcCond]
    split
    · rfl
    · exact ih (a + 1) (writeBytes (emit (memRead a s).1) (memRead a s).2)

theorem putString_withPcCond (routine : Held) (emit : Word → List Byte) (s : State) :
    putString routine emit (withPcCond v f s) = withPcCond v f (putString routine emit s) := by
  rw [putString, putString, show (withPcCond v f s).reg .r0 = s.reg .r0 from rfl, walkString_withPcCond]
  split
  · rfl
  · rfl

theorem requestChar_withPcCond {w : Held} {resume : Byte → State → State} (s : State)
    (takes : ∀ c u, resume c (withPcCond v f u) = withPcCond v f (resume c u)) :
    requestChar w resume (withPcCond v f s) = withPcCond v f (requestChar w resume s) := by
  obtain ⟨req, result⟩ | ⟨c, rest, noReq, pending, result⟩ | ⟨noReq, noByte, result⟩ := requestChar_cases w resume s
  · rw [result, requestChar_abandons (s := withPcCond v f s) req]
    rfl
  · rw [result, requestChar_takes (s := withPcCond v f s) noReq pending]
    exact takes c { s with held := .none, conIn := rest }
  · rw [result, requestChar_waits (s := withPcCond v f s) noReq noByte]
    rfl

end PassThrough

/-- Other values of the pc, where the instruction does not use it, and of `cond`, where it is not BR, reach nothing
but the pc and `cond`. -/
theorem exec_withPcCond {i : Instr} {s t : State} (v : Word) (f : BitVec 3) (notBr : ∀ nzp off, i ≠ .br nzp off)
    (pcUnused : i.usesPc = true → v = s.pc) (run : exec i s = .next t) :
    ∃ v' f', exec i (withPcCond v f s) = .next (withPcCond v' f' t) ∧ (v = s.pc → v' = t.pc) ∧
      (f = s.cond → f' = t.cond) := by
  cases i with
  | br nzp off => exact absurd rfl (notBr nzp off)
  | addReg | addImm | andReg | andImm | not =>
    cases run
    exact ⟨v, _, rfl, id, fun _ => rfl⟩
  | lea =>
    cases run
    cases pcUnused rfl
    exact ⟨s.pc, _, rfl, fun _ => rfl, fun _ => rfl⟩
  | ld dr off =>
    cases run
    cases pcUnused rfl
    exact ⟨s.pc, _, congrArg Host.Outcome.next (loadFrom_withPcCond s.pc f dr (ea9 off s) s),
      fun _ => (loadFrom_pc _ _ s).symm, fun _ => rfl⟩
  | ldi dr off =>
    cases run
    cases pcUnused rfl
    have pointer := memRead_withPcCond s.pc f (ea9 off s) s
    refine ⟨s.pc, _, ?run, fun _ => ((loadFrom_pc _ _ _).trans (memRead_pc _ s)).symm, fun _ => rfl⟩
    case run =>
      rw [exec, execLdi, show ea9 off (withPcCond s.pc f s) = ea9 off s from rfl, pointer]
      exact congrArg Host.Outcome.next (loadFrom_withPcCond s.pc f dr _ _)
  | ldr dr base off =>
    cases run
    exact ⟨v, _, congrArg Host.Outcome.next (loadFrom_withPcCond v f dr (ea6 base off s) s),
      fun same => same.trans (loadFrom_pc _ _ s).symm, fun _ => rfl⟩
  | sti sr off =>
    cases run
    cases pcUnused rfl
    have pointer := memRead_withPcCond s.pc f (ea9 off s) s
    refine ⟨s.pc, f, ?run, fun _ => (memRead_pc _ s).symm, fun same => same.trans (memRead_cond _ s).symm⟩
    case run =>
      rw [exec, execSti, show ea9 off (withPcCond s.pc f s) = ea9 off s from rfl, pointer]
      rfl
  | st | jsr | jsrr =>
    cases run
    cases pcUnused rfl
    exact ⟨_, f, rfl, fun _ => rfl, id⟩
  | jmp | ret =>
    cases run
    exact ⟨_, f, rfl, fun _ => rfl, id⟩
  | str | rti | res | trapHalt | trap | trapOut =>
    cases run
    exact ⟨v, f, rfl, id, id⟩
  | trapPuts | trapPutsp =>
    cases run
    exact ⟨v, f, congrArg Host.Outcome.next (putString_withPcCond v f _ _ s),
      fun same => same.trans (putString_pc _ _ s).symm, fun same => same.trans (putString_cond _ _ s).symm⟩
  | trapGetc =>
    cases run
    exact ⟨v, f, congrArg Host.Outcome.next (requestChar_withPcCond v f (resume := getcTakes) s fun _ _ => rfl),
      fun same => same.trans (awaitGetc_pc s).symm, fun same => same.trans (awaitGetc_cond s).symm⟩
  | trapIn =>
    cases run
    exact ⟨v, f, congrArg Host.Outcome.next
      (requestChar_withPcCond v f (resume := inTakes) (writeBytes config.inPrompt s) fun _ _ => rfl),
      fun same => same.trans (awaitIn_pc (writeBytes config.inPrompt s)).symm,
      fun same => same.trans (awaitIn_cond (writeBytes config.inPrompt s)).symm⟩

/-- Settles O44: the pc after the execution is `pcAfter` of the fetched state; where the instruction does not use the pc
another value of it passes through (`exec_withPcCond`). -/
theorem pcAfterEveryInstruction : Obligations.PcAfterEveryInstruction := by
  refine ⟨fun s t ready stepped => ?after, fun i s t v unused run => ?unused⟩
  case after =>
    obtain ⟨running, between, noReq⟩ := ready
    rw [step_ready running between noReq] at stepped
    have pc := exec_pc stepped
    generalize decode (memRead s.pc s).1 = i at pc ⊢
    cases i with
    | br | jsr | jsrr | jmp | ret => simpa [pcAfter] using pc
    | _ => exact (congrArg BitVec.toNat pc).trans (BitVec.toNat_add s.pc 1)
  case unused =>
    have notBr : ∀ nzp off, i ≠ .br nzp off := by
      rintro nzp off rfl
      cases unused
    obtain ⟨v', f', run', -, cond⟩ := exec_withPcCond v s.cond notBr (fun used => by simp [unused] at used) run
    refine ⟨v', ?_⟩
    rw [cond rfl] at run'
    exact run'

/-- Settles O51: with the pc as it is, another value of `cond` passes through (`exec_withPcCond`). -/
theorem onlyBranchReadsFlags : Obligations.OnlyBranchReadsFlags := by
  intro i s t f notBr run
  obtain ⟨v', f', run', pc, -⟩ := exec_withPcCond s.pc f notBr (fun _ => rfl) run
  refine ⟨f', ?_⟩
  rw [pc rfl] at run'
  exact run'

/-! Memory changes only where a store goes. -/

theorem loadFrom_cell (dr : Reg) (ea : Word) {a : Word} (s : State) (notStatus : a ≠ config.kbsrAddr)
    (notData : a ≠ config.kbdrAddr) : (loadFrom dr ea s).cell a = s.cell a :=
  memRead_cell s notStatus notData

theorem memWrite_cell_ne {a b : Word} (v : Word) (s : State) (other : some a ≠ some b) :
    (memWrite a v s).cell b = s.cell b :=
  setCell_cell_ne s v fun same => other (congrArg some same.symm)

theorem putString_cell (routine : Held) (emit : Word → List Byte) {a : Word} (s : State)
    (notStatus : a ≠ config.kbsrAddr) (notData : a ≠ config.kbdrAddr) :
    (putString routine emit s).cell a = s.cell a := by
  obtain ⟨-, -, -, -, -, -, -, cells, -⟩ := putString_frame routine emit s
  exact cells a notStatus notData

theorem requestChar_cell (w : Held) {resume : Byte → State → State} {a : Word} (s : State)
    (keeps : ∀ c u, (resume c u).cell a = u.cell a) : (requestChar w resume s).cell a = s.cell a :=
  requestChar_induction (P := fun t => t.cell a = s.cell a) rfl (fun c _ _ => keeps c _) (fun _ => rfl)

/-- Settles O53, instruction by instruction: a store writes one cell, a read the keyboard's at most. -/
theorem onlyStoresChangeMemory : Obligations.OnlyStoresChangeMemory := by
  intro i s t run a notStored notStatus notData
  cases i with
  | br =>
    cases run
    split
    · rfl
    · rfl
  | st | str =>
    cases run
    exact memWrite_cell_ne _ s notStored
  | sti sr off =>
    cases run
    exact (memWrite_cell_ne _ (memRead (ea9 off s) s).2 notStored).trans (memRead_cell s notStatus notData)
  | ld | ldr =>
    cases run
    exact loadFrom_cell _ _ s notStatus notData
  | ldi dr off =>
    cases run
    exact (loadFrom_cell _ _ (memRead (ea9 off s) s).2 notStatus notData).trans (memRead_cell s notStatus notData)
  | trapPuts | trapPutsp =>
    cases run
    exact putString_cell _ _ s notStatus notData
  | trapGetc =>
    cases run
    exact requestChar_cell .getc (resume := getcTakes) s fun _ _ => rfl
  | trapIn =>
    cases run
    exact requestChar_cell .inEcho (resume := inTakes) (writeBytes config.inPrompt s) fun _ _ => rfl
  | _ =>
    cases run
    rfl

/-! A store is seen by the next fetch. -/

/-- What ST, STR and STI do to the cell they store to, and what they leave alone. -/
theorem exec_store {i : Instr} {s : State} {sr : Reg} {a : Word} (canonical : s.mem.wf = true)
    (stores : i.storesFrom = some sr) (target : i.storesTo s = some a) :
    ∃ t, exec i s = .next t ∧ t.cell a = s.reg sr ∧ SameRun s t ∧ t.shutdownReq = s.shutdownReq := by
  cases i with
  | st | str =>
    cases stores
    cases target
    exact ⟨_, rfl, setCell_cell_same _ _ canonical, ⟨rfl, rfl, rfl⟩, rfl⟩
  | sti r off =>
    cases stores
    cases target
    have stored := setCell_cell_same (memRead (ea9 off s) s).1 ((memRead (ea9 off s) s).2.reg sr)
      (memRead_wf (ea9 off s) canonical)
    exact ⟨_, rfl, stored.trans (memRead_reg _ s sr), (memRead_quiet _ s).run, memRead_shutdownReq _ s⟩
  | _ => cases stores

/-- An instruction that stores leaves the pc of the fetched state. -/
theorem pcAfter_of_storesFrom {i : Instr} {sr : Reg} (u : State) (stores : i.storesFrom = some sr) :
    pcAfter i u = u.pc := by
  cases i with
  | st | str | sti => rfl
  | _ => cases stores

/-- Settles O45: the store of the fetched instruction (`exec_store`), then the step of the state it left. -/
theorem storeIsSeenByNextFetch : Obligations.StoreIsSeenByNextFetch := by
  intro s sr ready canonical stores target plainFetch
  obtain ⟨running, between, noReq⟩ := ready
  obtain ⟨t, run, stored, ⟨state, -, held⟩, request⟩ := exec_store ((fetch_quiet s).wf canonical) stores target
  have pc : t.pc = s.pc + 1 := (exec_pc run).trans (pcAfter_of_storesFrom _ stores)
  have cell : t.cell (s.pc + 1) = s.reg sr := stored.trans (memRead_reg s.pc s sr)
  obtain ⟨fetchState, -, fetchHeld⟩ := (fetch_quiet s).run
  have next := (stepRunsDecodedInstruction t (state.trans (fetchState.trans running))
    (held.trans (fetchHeld.trans between)) (request.trans ((memRead_shutdownReq s.pc s).trans noReq))).2
    (pc.symm ▸ plainFetch)
  refine ⟨t, (step_ready running between noReq).trans run, pc, cell, ?next⟩
  case next =>
    have two : s.pc + 1 + 1 = s.pc + 2 := BitVec.add_assoc s.pc 1 1
    rw [next, pc, cell, two]

end Sys2Proof.Proofs
end

section
/-! PROOFS. The obligations of 70_reset_and_hazards.md: the reset values and the program image (R190 to R195). -/

namespace Sys2Proof.Proofs

open Sys2Proof.Machine Sys2Proof.Machine.Laws

/-- Settles O57: every register and every cell is zero, the rest is as listed. -/
theorem resetValues : Obligations.ResetValues := by
  refine ⟨fun r => ?regs, rfl, rfl, fun _ => rfl, rfl, rfl, rfl, rfl⟩
  case regs =>
    cases r with
    | _ => rfl

/-! The words of an image. -/

/-- The number of the `k`-th byte, zero past the end. -/
def byteAt (bytes : List Byte) (k : Nat) : Nat := (bytes.getD k 0#8).toNat

theorem wordsOf_length : ∀ bytes : List Byte, (wordsOf bytes).length = bytes.length / 2
  | [] => rfl
  | [_] => (Nat.div_eq_of_lt (by decide : 1 < 2)).symm
  | hi :: lo :: rest => by
    simp only [wordsOf, List.length_cons, wordsOf_length rest]
    omega

/-- The words are big-endian (R194). -/
theorem wordsOf_toNat : ∀ (bytes : List Byte) {k : Nat} (inside : k < (wordsOf bytes).length),
    (wordsOf bytes)[k].toNat = byteAt bytes (2 * k) * 256 + byteAt bytes (2 * k + 1)
  | [], _, inside | [_], _, inside => absurd inside (Nat.not_lt_zero _)
  | hi :: lo :: _, 0, _ => append_toNat hi lo
  | _ :: _ :: rest, k + 1, inside => wordsOf_toNat rest (k := k) (Nat.lt_of_succ_lt_succ inside)

/-- A last odd byte makes no word (R195). -/
theorem wordsOf_append_singleton (b : Byte) : ∀ {bytes : List Byte}, bytes.length % 2 = 0 →
    wordsOf (bytes ++ [b]) = wordsOf bytes
  | [], _ => rfl
  | hi :: lo :: rest, even => by
    have even' : rest.length % 2 = 0 := by
      simp only [List.length_cons] at even
      omega
    exact congrArg (List.cons (hi ++ lo)) (wordsOf_append_singleton b even')

/-! The loader's stores. -/

/-- A cell that no word is stored to is as before. -/
theorem loadWords_cell_other {a b : Word} {ws : List Word} {s : State}
    (other : ∀ k, k < ws.length → b ≠ a + BitVec.ofNat 16 k) : (loadWords a ws s).cell b = s.cell b := by
  induction ws generalizing a s with
  | nil => rfl
  | cons w ws ih =>
    have first : b ≠ a := by simpa using other 0 (Nat.succ_pos _)
    have later := ih (a := a + 1) (s := s.setCell a w) fun k inside =>
      ofNat_succ a k ▸ other (k + 1) (Nat.succ_lt_succ inside)
    exact later.trans (setCell_cell_ne s w first)

/-- A cell holds the last of the words that are stored to it. -/
theorem loadWords_cell_last {a : Word} {ws : List Word} {s : State} {k : Nat} (canonical : s.mem.wf = true)
    (inside : k < ws.length)
    (last : ∀ j, k < j → j < ws.length → a + BitVec.ofNat 16 j ≠ a + BitVec.ofNat 16 k) :
    (loadWords a ws s).cell (a + BitVec.ofNat 16 k) = ws[k] := by
  induction ws generalizing a s k with
  | nil => cases inside
  | cons w ws ih =>
    cases k with
    | zero =>
      have kept : (loadWords (a + 1) ws (s.setCell a w)).cell a = (s.setCell a w).cell a := by
        refine loadWords_cell_other fun j below => ?_
        have apart := last (j + 1) (Nat.succ_pos j) (Nat.succ_lt_succ below)
        rw [BitVec.add_zero] at apart
        exact ofNat_succ a j ▸ apart.symm
      rw [BitVec.add_zero]
      exact kept.trans (setCell_cell_same a w canonical)
    | succ k =>
      rw [← ofNat_succ]
      refine ih (setCell_wf a w canonical) (Nat.lt_of_succ_lt_succ inside) fun j above below => ?_
      rw [ofNat_succ, ofNat_succ]
      exact last (j + 1) (Nat.succ_lt_succ above) (Nat.succ_lt_succ below)

/-- Settles O58: the loader's stores from reset (`loadWords_cell_last`, `loadWords_cell_other`), of the words of the
image (`wordsOf_toNat`). -/
theorem imageIsLoadedFromOrigin : Obligations.ImageIsLoadedFromOrigin := by
  intro bytes n size
  match bytes, size with
  | hi :: lo :: rest, size =>
    intro byte at_
    have count : (wordsOf rest).length = n := by
      rw [wordsOf_length]
      simp only [List.length_cons] at size
      omega
    have address (k : Nat) : at_ k = (hi ++ lo) + BitVec.ofNat 16 k := by
      apply BitVec.eq_of_toNat_eq
      rw [BitVec.toNat_add, append_toNat]
      simp [at_, byte]
    refine ⟨loadWords (hi ++ lo) (wordsOf rest) State.reset, rfl, fun k inside last => ?word, fun a other => ?other,
      ?frame⟩
    case word =>
      simp only [address] at last ⊢
      subst count
      have word : (wordsOf rest)[k].toNat = byte (2 * k + 2) * 256 + byte (2 * k + 3) := wordsOf_toNat rest inside
      rw [loadWords_cell_last reset_mem_wf inside last, word]
    case other =>
      simp only [address] at other
      exact loadWords_cell_other fun k inside => other k (count ▸ inside)
    case frame =>
      rw [loadWords_eq]
      rfl

/-- Settles O59: the edge cases are those of the image's words. -/
theorem imageEdgeCases : Obligations.ImageEdgeCases := by
  refine ⟨fun bytes b even _ => ?oddByte, fun _ _ => rfl, fun bytes short => ?tooShort⟩
  case oddByte => rw [State.boot, State.boot, parseImage, parseImage, wordsOf_append_singleton b even]
  case tooShort =>
    match bytes, short with
    | [], _ | [_], _ => rfl

end Sys2Proof.Proofs
end
